-- ==== Sys2Proof/Word.lean ====
section
/-! DEFINITION. The word types of the block. Spec: 00_scope.md R9, R12; 20_memory.md R84 (every storage element is a
whole word; nothing is byte-addressable). -/

namespace Sys2Proof

/-- One byte, only ever seen on a byte-wide transport (20_memory.md R85). -/
abbrev Byte := BitVec 8

/-- The encoding of an IEEE 754 binary32 value: a sample, a parameter or a phase (00_scope.md R12). -/
abbrev F32 := BitVec 32

/-- The encoding of an IEEE 754 binary64 value: a sample rate and what is computed from it (00_scope.md R12). -/
abbrev F64 := BitVec 64

end Sys2Proof
end

