-- ==== Sys2Proof/Syntax.lean ====
section
/-! DEFINITION. The command set MP-CORE-1 as syntax. Spec: 30_encoding.md R110 (packets), R117 (operands), R118 (the opcode
map), R128 (pseudo-instructions). -/

namespace Sys2Proof

/-- The two ports, one per agent (60_exceptions.md R290). -/
inductive Port where
  | host
  | ctrl
  deriving DecidableEq, Repr

/-- The parameter named by SET_PARAM's PID bit (R115): 0 is rate, 1 is depth. -/
inductive ParamId where
  | rate
  | depth
  deriving DecidableEq, Repr

/-- A command packet: the command word CW and the payload word PL (R110). -/
structure Packet where
  cw : BitVec 32
  pl : BitVec 64
  deriving DecidableEq, Repr

/-- The seven commands (R118). The operands are those of R117: MAXBLK, NIN, NOUT and NSAMP are unsigned integers, the float
operands are encodings. -/
inductive Instr where
  /-- INIT (R251). -/
  | init
  /-- PREPARE (R252). -/
  | prepare (maxblk : Nat) (sr : F64)
  /-- PROCESS_BLOCK (R220). -/
  | processBlock (nin nout nsamp : Nat)
  /-- RESET (R254). -/
  | reset
  /-- SET_PARAM (R142). -/
  | setParam (pid : ParamId) (value : F32)
  /-- READ_PARAMS (R146). -/
  | readParams
  /-- LOAD_PARAMS (R147). `ok` is true when the persistence collaborator decoded its blob. -/
  | loadParams (ok : Bool) (rate depth : F32)
  deriving DecidableEq, Repr

/-- The only port that accepts a command (R118, R124). -/
def Instr.port : Instr → Port
  | .init => .host
  | .prepare _ _ => .host
  | .processBlock _ _ _ => .host
  | .reset => .host
  | .setParam _ _ => .ctrl
  | .readParams => .ctrl
  | .loadParams _ _ _ => .ctrl

/-- The pseudo-instruction SET_RATE (R128). -/
def Instr.setRate (v : F32) : Instr := .setParam .rate v

/-- The pseudo-instruction SET_DEPTH (R128). -/
def Instr.setDepth (v : F32) : Instr := .setParam .depth v

end Sys2Proof
end

