-- ==== Sys2Proof/WellFormed.lean ====
section
/-! DEFINITION. When a command's integer operands fit the fields of its format. Spec: 30_encoding.md R113 (MAXBLK, 24 bits),
R114 (NIN and NOUT, 4 bits; NSAMP, 20 bits), R127 (an operand that does not fit its field is refused). The float fields and
the one-bit fields admit every value (R117). -/

namespace Sys2Proof

def Instr.wellFormed : Instr → Bool
  | .init => true
  | .prepare maxblk _ => decide (maxblk < 2 ^ 24)
  | .processBlock nin nout nsamp => decide (nin < 2 ^ 4) && decide (nout < 2 ^ 4) && decide (nsamp < 2 ^ 20)
  | .reset => true
  | .setParam _ _ => true
  | .readParams => true
  | .loadParams _ _ _ => true

end Sys2Proof
end

