-- ==== Sys2Proof/Decode.lean ====
section
/-! DEFINITION. The decoder and the encoder of command packets, and their byte transport.
Spec: 30_encoding.md R110–R125 (formats, opcode map, reserved encodings, ports and decode order), 20_memory.md R85 (byte
order of a transport). -/

namespace Sys2Proof

/-! ## Operand assembly (R111–R117) -/

namespace Packet

/-- OPC, CW[31:28] (R111). -/
def opc (p : Packet) : Nat := (p.cw.extractLsb' 28 4).toNat

/-- CW[27:0], reserved in format N (R112). -/
def reservedN (p : Packet) : BitVec 28 := p.cw.extractLsb' 0 28

/-- CW[27:24], reserved in format P (R113). -/
def reservedP (p : Packet) : BitVec 4 := p.cw.extractLsb' 24 4

/-- CW[27:1], reserved in formats S and L (R115, R116). -/
def reservedSL (p : Packet) : BitVec 27 := p.cw.extractLsb' 1 27

/-- MAXBLK, CW[23:0] (R113). -/
def maxblk (p : Packet) : Nat := (p.cw.extractLsb' 0 24).toNat

/-- NIN, CW[27:24] (R114). -/
def nin (p : Packet) : Nat := (p.cw.extractLsb' 24 4).toNat

/-- NOUT, CW[23:20] (R114). -/
def nout (p : Packet) : Nat := (p.cw.extractLsb' 20 4).toNat

/-- NSAMP, CW[19:0] (R114). -/
def nsamp (p : Packet) : Nat := (p.cw.extractLsb' 0 20).toNat

/-- CW[0]: PID of SET_PARAM, OK of LOAD_PARAMS (R115, R116). -/
def flag (p : Packet) : Bool := p.cw.getLsbD 0

/-- PL[31:0]: VALUE of SET_PARAM, RATE of LOAD_PARAMS (R115, R116). -/
def plLow (p : Packet) : F32 := p.pl.extractLsb' 0 32

/-- PL[63:32]: DEPTH of LOAD_PARAMS (R116). -/
def plHigh (p : Packet) : F32 := p.pl.extractLsb' 32 32

end Packet

/-! ## Decoding (R118–R125) -/

/-- Why a packet is no command. Both reasons are reported as ILLEGAL_COMMAND (R119, R120). -/
inductive DecodeError where
  /-- OPC is 0x0 or 0x8 … 0xF (R119). -/
  | reservedOpcode
  /-- A bit of a reserved field is 1 (R120). -/
  | reservedBits
  deriving DecidableEq, Repr

/-- The first two checks of R124, and the operands of R117. Total: every packet is a command or is rejected by name. -/
def decode (p : Packet) : Except DecodeError Instr :=
  match p.opc with
  | 0x1 => if p.reservedN = 0 then .ok .init else .error .reservedBits
  | 0x2 => if p.reservedP = 0 then .ok (.prepare p.maxblk p.pl) else .error .reservedBits
  | 0x3 => .ok (.processBlock p.nin p.nout p.nsamp)
  | 0x4 => if p.reservedN = 0 then .ok .reset else .error .reservedBits
  | 0x5 => if p.reservedSL = 0 then .ok (.setParam (if p.flag then .depth else .rate) p.plLow) else .error .reservedBits
  | 0x6 => if p.reservedN = 0 then .ok .readParams else .error .reservedBits
  | 0x7 => if p.reservedSL = 0 then .ok (.loadParams p.flag p.plLow p.plHigh) else .error .reservedBits
  | _ => .error .reservedOpcode

/-- The one outcome of R124 for a packet on a port. -/
inductive Delivery where
  /-- The packet is a command of that port. -/
  | run (i : Instr)
  /-- `raise ILLEGAL_COMMAND` (R119, R120). -/
  | illegal (why : DecodeError)
  /-- `raise WRONG_PORT` (R124). -/
  | wrongPort (i : Instr)
  deriving DecidableEq, Repr

/-- The decode order of R124: reserved opcode, reserved bits, port, command. -/
def deliver (port : Port) (p : Packet) : Delivery :=
  match decode p with
  | .error e => .illegal e
  | .ok i => if i.port = port then .run i else .wrongPort i

/-- The port on which a packet's command runs; HOST for a packet that is no command. -/
def Packet.ownPort (p : Packet) : Port :=
  match decode p with
  | .ok i => i.port
  | .error _ => .host

/-! ## Encoding (R112–R116) -/

/-- The packet of a well-formed command. Ignored payload bits may be any (R121): DESIGN CHOICE, they are written 0 (log 29). -/
def encode : Instr → Packet
  | .init => ⟨0x1#4 ++ 0#28, 0⟩
  | .prepare maxblk sr => ⟨0x2#4 ++ 0#4 ++ BitVec.ofNat 24 maxblk, sr⟩
  | .processBlock nin nout nsamp => ⟨0x3#4 ++ BitVec.ofNat 4 nin ++ BitVec.ofNat 4 nout ++ BitVec.ofNat 20 nsamp, 0⟩
  | .reset => ⟨0x4#4 ++ 0#28, 0⟩
  | .setParam .rate value => ⟨0x5#4 ++ 0#27 ++ 0#1, 0#32 ++ value⟩
  | .setParam .depth value => ⟨0x5#4 ++ 0#27 ++ 1#1, 0#32 ++ value⟩
  | .readParams => ⟨0x6#4 ++ 0#28, 0⟩
  | .loadParams ok rate depth => ⟨0x7#4 ++ 0#27 ++ BitVec.ofBool ok, depth ++ rate⟩

/-! ## The byte transport (20_memory.md R85) -/

/-- The `n` bytes of a word, least significant first. -/
def bytesOfWord {w : Nat} (n : Nat) (v : BitVec w) : List Byte :=
  (List.range n).map fun i => v.extractLsb' (8 * i) 8

/-- The number whose bytes, least significant first, are given. -/
def wordOfBytes : List Byte → Nat
  | [] => 0
  | b :: bs => b.toNat + 256 * wordOfBytes bs

/-- CW as 4 bytes, then PL as 8 bytes. -/
def Packet.toBytes (p : Packet) : List Byte := bytesOfWord 4 p.cw ++ bytesOfWord 8 p.pl

/-- The packet carried by exactly 12 bytes; every other count of bytes is no packet (R110). -/
def Packet.ofBytes? (bs : List Byte) : Option Packet :=
  if bs.length = 12 then
    some ⟨BitVec.ofNat 32 (wordOfBytes (bs.take 4)), BitVec.ofNat 64 (wordOfBytes (bs.drop 4))⟩
  else none

/-! ## The opcode table's numbering -/

/-- The packet whose bits are `w` as spec/opcode_table.json numbers them: CW is bits 31..0 and PL is bits 95..32. The table
gives a row `nbits` bits; the bits above are 0. The bits travel as the 12 bytes of R85. -/
def Packet.ofTableBits (nbits w : Nat) : Packet :=
  ((Packet.ofBytes? (bytesOfWord 12 (BitVec.ofNat 96 (w % 2 ^ nbits)))).getD ⟨0, 0⟩)

/-- The instruction that the decoder reads from those bits; none where it rejects them. -/
def decodeTableWord (nbits w : Nat) : Option Instr := (decode (Packet.ofTableBits nbits w)).toOption

end Sys2Proof
end

