-- ==== Sys2Proof/Machine/Float.lean ====
section
/-! DEFINITION. Exact values and the two rounding primitives of the datapath.
Spec: 00_scope.md R12 (formats), R13 (`rnd32`, `rnd64`, `floor`, `fmod`, comparisons), R15 (one operator at a time, each
exact result rounded as the pseudocode names), R16 (no exception flag is kept), 93_implementation_defined.md I7 (NaN).

An operator of a rule is computed on `Exact`, without rounding, and its result is rounded by `rnd32` or `rnd64`; so the text
of a datapath rule and its Lean read alike. -/

namespace Sys2Proof

/-- A binary floating-point format: the bits of its stored fraction, the bits of its exponent field, and the exponent
`scale` such that its smallest positive value is 2^(−scale). -/
structure Format where
  fracBits : Nat
  expBits  : Nat
  scale    : Nat
  deriving DecidableEq, Repr

/-- binary32 (R12). -/
def Format.binary32 : Format := ⟨23, 8, 149⟩

/-- binary64 (R12). -/
def Format.binary64 : Format := ⟨52, 11, 1074⟩

/-- The encoding of +infinity in a format; every smaller magnitude encoding is finite, every larger one a NaN. -/
def Format.infBits (f : Format) : Nat := (2 ^ f.expBits - 1) * 2 ^ f.fracBits

/-- An extended real before rounding. `fin neg num den` is ±num/den with den > 0; the sign is kept when num = 0, because
IEEE 754 zeros are signed. -/
inductive Exact where
  | nan
  | inf (neg : Bool)
  | fin (neg : Bool) (num den : Nat)
  deriving DecidableEq, Repr

namespace Exact

/-- An integer as an exact value: `f64(i)` of an integer rounds nothing (R12). -/
def ofInt (i : Int) : Exact := .fin (decide (i < 0)) i.natAbs 1

/-- The signed numerator of a finite value. -/
def signed (neg : Bool) (num : Nat) : Int := if neg then -(num : Int) else (num : Int)

def neg : Exact → Exact
  | .nan => .nan
  | .inf s => .inf (!s)
  | .fin s n d => .fin (!s) n d

/-- Exact product; infinity times zero is a NaN. -/
def mul : Exact → Exact → Exact
  | .nan, _ => .nan
  | _, .nan => .nan
  | .inf s, .inf t => .inf (s ^^ t)
  | .inf s, .fin t n _ => if n = 0 then .nan else .inf (s ^^ t)
  | .fin s n _, .inf t => if n = 0 then .nan else .inf (s ^^ t)
  | .fin s n d, .fin t m e => .fin (s ^^ t) (n * m) (d * e)

/-- Exact sum; infinities of opposite signs give a NaN, and an exact zero sum is −0 only when both terms are negative
(round to nearest). -/
def add : Exact → Exact → Exact
  | .nan, _ => .nan
  | _, .nan => .nan
  | .inf s, .inf t => if s = t then .inf s else .nan
  | .inf s, .fin _ _ _ => .inf s
  | .fin _ _ _, .inf t => .inf t
  | .fin s n d, .fin t m e =>
    let z := signed s n * e + signed t m * d
    if z = 0 then .fin (s && t) 0 1 else .fin (decide (z < 0)) z.natAbs (d * e)

/-- Exact difference. -/
def sub (a b : Exact) : Exact := add a (neg b)

/-- The exact reciprocal 1/x; 1/0 is an infinity of x's sign. -/
def recip : Exact → Exact
  | .nan => .nan
  | .inf s => .fin s 0 1
  | .fin s n d => if n = 0 then .inf s else .fin s d n

/-- `fmod` (R13): x − y·trunc(x/y), exact. R13 uses it for x ≥ 0 and y > 0 only; elsewhere this is IEEE 754's fmod, which
no reachable state calls. -/
def fmod : Exact → Exact → Exact
  | .fin s n d, .fin _ m e => if m = 0 then .nan else .fin s ((n * e) % (m * d)) (d * e)
  | .fin s n d, .inf _ => .fin s n d
  | _, _ => .nan

/-- `floor` as an index (R13): none when the value is no natural number's floor (negative, infinite, NaN). -/
def floorNat? : Exact → Option Nat
  | .fin false n d => some (n / d)
  | .fin true 0 _ => some 0
  | _ => none

/-- The ceiling of a finite non-negative value (42_delay_line.md R193 applies it to nothing else). -/
def ceilNat : Exact → Nat
  | .fin false n d => (n + d - 1) / d
  | _ => 0

end Exact

/-- The value of a magnitude encoding below `infBits`, in units of 2^(−scale): an exponent field of 0 is a subnormal. -/
def Format.magUnits (f : Format) (mag : Nat) : Nat :=
  if mag / 2 ^ f.fracBits = 0 then mag
  else (mag % 2 ^ f.fracBits + 2 ^ f.fracBits) * 2 ^ (mag / 2 ^ f.fracBits - 1)

/-- The exact value that a sign and a magnitude encoding stand for (R12). -/
def Format.decodeValue (f : Format) (neg : Bool) (mag : Nat) : Exact :=
  if mag < f.infBits then .fin neg (f.magUnits mag) (2 ^ f.scale)
  else if mag = f.infBits then .inf neg
  else .nan

/-- num/den rounded to the nearest integer, ties to even. -/
def roundTiesEven (num den : Nat) : Nat :=
  let q := num / den
  let r := num % den
  if 2 * r < den then q else if den < 2 * r then q + 1 else q + q % 2

/-- The magnitude encoding of num/den rounded to nearest, ties to even, with gradual underflow and overflow to infinity
(R13). `k` is the exponent, in units of the smallest subnormal, of the last place of the result; the encoding
`k·2^fracBits + m` lets a carry out of the significand raise the exponent. -/
def Format.roundMag (f : Format) (num den : Nat) : Nat :=
  let units := num * 2 ^ f.scale
  let k := Nat.log2 (units / den) - f.fracBits
  min f.infBits (k * 2 ^ f.fracBits + roundTiesEven units (den * 2 ^ k))

namespace F32

def isNeg (x : F32) : Bool := x.msb

/-- The encoding without its sign bit. -/
def mag (x : F32) : Nat := x.toNat % 2 ^ 31

/-- The exact value of a binary32 encoding; the widening `f64(x)` of R12 is this same value. -/
def val (x : F32) : Exact := Format.binary32.decodeValue (isNeg x) (mag x)

/-- Above the encoding of infinity every magnitude is a NaN (R12). -/
def isNaN (x : F32) : Bool := decide (Format.binary32.infBits < mag x)

/-- Order-preserving reading of a non-NaN encoding as an integer: −0 and +0 are both 0. -/
def key (x : F32) : Int := if isNeg x then -(mag x : Int) else (mag x : Int)

/-- IEEE comparison `<` (R13): false when an operand is a NaN. -/
def lt (a b : F32) : Bool := !isNaN a && !isNaN b && decide (key a < key b)

/-- IEEE comparison `≤` (R13): false when an operand is a NaN. -/
def le (a b : F32) : Bool := !isNaN a && !isNaN b && decide (key a ≤ key b)

/-- The encoding with a given sign and magnitude. -/
def ofSignMag (neg : Bool) (mag : Nat) : F32 := BitVec.ofNat 32 ((if neg then 2 ^ 31 else 0) + mag)

/-- A NaN made from 32 free bits: the exponent field is set to ones, and a zero fraction becomes the quiet bit. Every
binary32 NaN is the image of itself. -/
def nanOf (free : F32) : F32 :=
  if free &&& 0x007FFFFF#32 = 0#32 then free ||| 0x7FC00000#32 else free ||| 0x7F800000#32

/-- The rational value of a finite encoding, 0 for an infinity or a NaN. -/
def toRat (x : F32) : ℚ :=
  match val x with
  | .fin neg n d => (Exact.signed neg n : ℚ) / (d : ℚ)
  | _ => 0

/-- lo ≤ x ≤ hi, which no NaN satisfies. -/
def within (lo hi x : F32) : Bool := le lo x && le x hi

/-- 0 ≤ x < 1, which no NaN satisfies: the range of a phase (10_state.md R40). -/
def inUnit (x : F32) : Bool := le 0x00000000#32 x && lt x 0x3F800000#32

end F32

namespace F64

def isNeg (x : F64) : Bool := x.msb

/-- The encoding without its sign bit. -/
def mag (x : F64) : Nat := x.toNat % 2 ^ 63

/-- The exact value of a binary64 encoding. -/
def val (x : F64) : Exact := Format.binary64.decodeValue (isNeg x) (mag x)

/-- The encoding with a given sign and magnitude. -/
def ofSignMag (neg : Bool) (mag : Nat) : F64 := BitVec.ofNat 64 ((if neg then 2 ^ 63 else 0) + mag)

/-- Above the encoding of infinity every magnitude is a NaN (R12). -/
def isNaN (x : F64) : Bool := decide (Format.binary64.infBits < mag x)

/-- Order-preserving reading of a non-NaN encoding as an integer: −0 and +0 are both 0. -/
def key (x : F64) : Int := if isNeg x then -(mag x : Int) else (mag x : Int)

/-- IEEE comparison `<` (R13): false when an operand is a NaN. -/
def lt (a b : F64) : Bool := !isNaN a && !isNaN b && decide (key a < key b)

/-- IEEE comparison `≤` (R13): false when an operand is a NaN. -/
def le (a b : F64) : Bool := !isNaN a && !isNaN b && decide (key a ≤ key b)

/-- The rational value of a finite encoding, 0 for an infinity or a NaN. -/
def toRat (x : F64) : ℚ :=
  match val x with
  | .fin neg n d => (Exact.signed neg n : ℚ) / (d : ℚ)
  | _ => 0

/-- lo ≤ x ≤ hi, which no NaN satisfies. -/
def within (lo hi x : F64) : Bool := le lo x && le x hi

end F64

/-- `rnd32` (R13). A NaN that an operation produces has any sign and payload (I7): `free` supplies its bits. -/
def rnd32 (free : F32) : Exact → F32
  | .nan => F32.nanOf free
  | .inf neg => F32.ofSignMag neg Format.binary32.infBits
  | .fin neg n d => F32.ofSignMag neg (Format.binary32.roundMag n d)

/-- `rnd64` (R13). A binary64 NaN arises in no reachable state, and its payload reaches no register and no sample, since every
later use of it is a comparison, an index or `rnd32`: one encoding stands for all. -/
def rnd64 : Exact → F64
  | .nan => 0x7FF8000000000000#64
  | .inf neg => F64.ofSignMag neg Format.binary64.infBits
  | .fin neg n d => F64.ofSignMag neg (Format.binary64.roundMag n d)

end Sys2Proof
end

