-- ==== Sys2Proof/Config.lean ====
section
/-! DEFINITION. The named parameters of the block, and the values the spec leaves open. Spec: 00_scope.md R7, R15;
20_memory.md R88; 41_oscillator.md R171; 93_implementation_defined.md I7, I8, I10, I15–I17.

`params` holds the values that R7 gives this hardware. An `opaque` constant has no body: nothing is known of it but
its type. -/

namespace Sys2Proof.Config

/-! ## Parameters (R7) -/

/-- The two number readings of R15. -/
inductive Numerics where
  /-- The rounded arithmetic of R15. -/
  | binary32
  /-- Every rounding is the identity. -/
  | real
  deriving DecidableEq, Repr

/-- The named constants of R7 but LFO_FN, which stands in the arithmetic of a design (Machine/Design.lean). The machine takes them
as one argument. -/
structure Params where
  /-- RATE_MIN, Hz. -/
  rateMin : F32
  /-- RATE_MAX, Hz. -/
  rateMax : F32
  /-- RATE_DEF, Hz. -/
  rateDef : F32
  /-- DEPTH_MIN, seconds. -/
  depthMin : F32
  /-- DEPTH_MAX, seconds. -/
  depthMax : F32
  /-- DEPTH_DEF, seconds. -/
  depthDef : F32
  /-- RMARGIN, the samples subtracted in the read-position numerator. -/
  rMargin : Nat
  /-- L_MARGIN, the samples added to the delay-line length. -/
  lMargin : Nat
  /-- SR_MIN, Hz. -/
  srMin : F64
  /-- SR_MAX, Hz. -/
  srMax : F64
  /-- CH_MAX, the number of channels; legal from 1 to 15. -/
  chMax : Nat
  /-- BUF_CAP, the words of delay RAM per channel. -/
  bufCap : Nat
  /-- BLOCK_CAP, the words of block buffer per channel and the largest NSAMP; legal from 1 to 1048575. -/
  blockCap : Nat
  /-- NUMERICS, which chooses the arithmetic of the machine (Machine/Parametric.lean). -/
  numerics : Numerics
  deriving DecidableEq, Repr

/-- The values that R7 gives this hardware. -/
def params : Params where
  rateMin := 0x3F800000#32
  rateMax := 0x41400000#32
  rateDef := 0x40C00000#32
  depthMin := 0x3C23D70A#32
  depthMax := 0x3D4CCCCD#32
  depthDef := 0x3C23D70A#32
  rMargin := 3
  lMargin := 4
  srMin := 0x408F400000000000#64
  srMax := 0x4107700000000000#64
  chMax := 2
  bufCap := 9605
  blockCap := 65536
  numerics := .binary32

/-- RATE_MIN of this hardware, 1.0 Hz. -/
abbrev rateMin : F32 := params.rateMin
/-- RATE_MAX of this hardware, 12.0 Hz. -/
abbrev rateMax : F32 := params.rateMax
/-- RATE_DEF of this hardware, 6.0 Hz. -/
abbrev rateDef : F32 := params.rateDef
/-- DEPTH_MIN of this hardware, the binary32 nearest 0.01 s. -/
abbrev depthMin : F32 := params.depthMin
/-- DEPTH_MAX of this hardware, the binary32 nearest 0.05 s. -/
abbrev depthMax : F32 := params.depthMax
/-- DEPTH_DEF of this hardware, equal to DEPTH_MIN. -/
abbrev depthDef : F32 := params.depthDef
/-- CH_MAX of this hardware, 2. -/
abbrev chMax : Nat := params.chMax
/-- BUF_CAP of this hardware, 9605. -/
abbrev bufCap : Nat := params.bufCap
/-- BLOCK_CAP of this hardware, 65536. -/
abbrev blockCap : Nat := params.blockCap

/-- BLK_BASE, where the host places BLK in its own address space: open, and read by no rule (20_memory.md R88). -/
opaque blkBase : Nat

/-! ## Free values -/

/-- The operations of the datapath whose result is a binary32 value, and so can be a NaN with an open payload (I7). -/
inductive NanSite where
  /-- delta of PHASE_ADV. -/
  | delta
  /-- rnd32(p + delta) of PHASE_ADV. -/
  | phaseSum
  /-- q − 1.0 of PHASE_ADV. -/
  | phaseWrap
  /-- cd of DL_READ. -/
  | currentDelay
  /-- fr of DL_READ. -/
  | fraction
  /-- rnd32(1.0 − fr) of DL_READ. -/
  | weight
  /-- rnd32(fr · b1) of DL_READ. -/
  | tap1
  /-- rnd32(weight · b0) of DL_READ. -/
  | tap0
  /-- The final sum of DL_READ. -/
  | tapSum
  deriving DecidableEq, Repr

/-- The bits of a NaN that an operation produces in sample period `t` from two operands: `any value` (I7; DESIGN CHOICE 6).
The channel is no argument, so that lanes with equal inputs give equal outputs (43_engine.md R224(d)). -/
opaque nanBits (t : Nat) (site : NanSite) (a b : F32) : F32

/-- What the word BUF[c][i] reads as while nothing has written it: `any value`, the same at every read (I8, I9; 20_memory.md R87;
log 7). -/
opaque bufUnwritten (c i : Nat) : F32

/-- What HostRead of BLK[c][n] returns while nothing has written the word: `any value`, the same at every read (I10; 20_memory.md
R87; log 8). -/
opaque blkUnwritten (c n : Nat) : F32

/-- `bufUnwritten` under NUMERICS = Real. -/
noncomputable opaque bufUnwrittenReal (c i : Nat) : ℝ

/-- `blkUnwritten` under NUMERICS = Real. -/
noncomputable opaque blkUnwrittenReal (c n : Nat) : ℝ

/-- What R171 asks of `LFO_FN(p) = m` for one p with 0 ≤ p < 1: (1) m is not NaN and 0 ≤ m ≤ 1; (2) the quarter points are
exact; (3) m is within LFO_TOL = 2^(−22) of 0.5 + 0.5·sin(2π·p). -/
def LfoAllowed (p m : F32) : Prop :=
  F32.inUnit p = true →
    F32.within 0x00000000#32 0x3F800000#32 m = true ∧
    (p = 0x00000000#32 → m = 0x3F000000#32) ∧
    (p = 0x3E800000#32 → m = 0x3F800000#32) ∧
    (p = 0x3F000000#32 → m = 0x3F000000#32) ∧
    (p = 0x3F400000#32 → m = 0x00000000#32) ∧
    |((F32.toRat m : ℚ) : ℝ) - (1 / 2 + 1 / 2 * Real.sin (2 * Real.pi * ((F32.toRat p : ℚ) : ℝ)))| ≤ 1 / 2 ^ 22

/-- The open choice of LFO_FN, one allowed value for each phase (property 4 of R171: it depends on p alone). Where it gives
none, Machine/Oscillator.lean supplies an allowed value; so LFO_FN is any function R171 allows, and no other. -/
opaque lfoPick (p : F32) : Option { m : F32 // LfoAllowed p m }

end Sys2Proof.Config
end

