-- ==== Sys2Proof/Machine/State.lean ====
section
/-! DEFINITION. The state of the block, its faults and refusals, and the state after power-on reset.
Spec: 10_state.md R32–R54; 20_memory.md R80–R83, R89, R91, R100; 70_reset_and_hazards.md R310, R311. -/

namespace Sys2Proof.Machine

open Sys2Proof

/-- The memory of one channel: index and word, indexes strictly rising (20_memory.md R84: a word is the smallest thing an
access moves). A word that is not listed holds no value: nothing has written it since power-on (logs 4 and 5). A word is a
binary32 encoding, and under NUMERICS = Real a real number. -/
abbrev Bank (V : Type := F32) := List (Nat × V)

/-- A memory: one bank per channel (20_memory.md R81, R82). -/
abbrev Memory (V : Type := F32) (ch : Nat := Config.chMax) := Vector (Bank V) ch

/-- One thing an agent does, in the order of one interleaving (20_memory.md R91; log 1). -/
inductive Event (V : Type := F32) where
  /-- A packet arrives on a port (30_encoding.md R110, R124). -/
  | packet (port : Port) (p : Packet)
  /-- The HOST agent's action HostWrite(c, n, v) (20_memory.md R83). -/
  | hostWrite (c n : Nat) (v : V)
  /-- The HOST agent's action HostRead(c, n) (20_memory.md R83). -/
  | hostRead (c n : Nat)
  deriving DecidableEq, Repr

/-- The model faults. None is a status of the block (60_exceptions.md R280: the block itself never stops). -/
inductive Fault where
  /-- `INDEX_RANGE`: a rule computed an index outside its memory. Raised by RESET and PROCESS_BLOCK, in no reachable state
  (20_memory.md R89). Safe. -/
  | indexRange
  /-- `UNWRITTEN_INPUT` naming (c, n): PROCESS_BLOCK read a BLK word that nothing has written (20_memory.md R100). Raised by
  PROCESS_BLOCK. Safe: the hardware goes on with whatever the RAM holds. -/
  | unwrittenInput (c n : Nat)
  /-- HostWrite or HostRead outside CH_MAX × BLOCK_CAP: the host is stuck (20_memory.md R83). Raised by a host action. Safe. -/
  | hostStuck (c n : Nat)
  /-- PROCESS_BLOCK met LC = 3, which is never written (10_state.md R46; 93_implementation_defined.md I14). Safe. -/
  | lifecycleReserved
  deriving DecidableEq, Repr

/-- Why a step has no meaning. -/
inductive Refusal where
  /-- The command of this mnemonic has no meaning yet. Raised by `exec` alone; safe. No arm raises it: every command has its
  meaning. -/
  | notModelled (mnemonic : String)
  deriving DecidableEq, Repr

/-- Every piece of state the spec gives the block (R32, R49, R82), then the model's own fields. The parameters are those on which
the shape of the state depends: `V` holds a sample or a phase, `W` holds INV_SR, `ch` is CH_MAX. `State` alone is the state of
this hardware. The parameter registers and SR hold encodings under both readings of R15, because no rule computes them. -/
structure State (V : Type := F32) (W : Type := F64) (ch : Nat := Config.chMax) where
  /-- RATE_REG (R33). -/
  rateReg : F32
  /-- DEPTH_REG (R34). -/
  depthReg : F32
  /-- DIRTY (R36). -/
  dirty : Bool
  /-- FREQ (R37). -/
  freq : F32
  /-- WIDTH (R38). -/
  width : F32
  /-- PHASE (R40). -/
  phase : V
  /-- WIDX, an integer of 14 bits (R41; R14: integers are mathematical). -/
  widx : Nat
  /-- L_REG, an integer of 14 bits (R42). -/
  lReg : Nat
  /-- SR (R43). -/
  sr : F64
  /-- INV_SR (R44). -/
  invSr : W
  /-- MAXBLK, an integer of 24 bits (R45). -/
  maxblk : Nat
  /-- LC (R46): 0 UNINIT, 1 PREPARED, 2 ACTIVE. -/
  lc : BitVec 2
  /-- H_STATUS (R48). -/
  hStatus : BitVec 8
  /-- H_RDATA (R48). -/
  hRdata : BitVec 64
  /-- C_STATUS (R48). -/
  cStatus : BitVec 8
  /-- C_RDATA (R48). -/
  cRdata : BitVec 64
  /-- BUF, the delay RAM, one bank per channel (R49). -/
  buf : Memory V ch
  /-- BLK, the block buffer, one bank per channel (R82). -/
  blk : Memory V ch
  /-- The model's own: what the two agents still do, in one interleaving of their sequences (R55, R91; log 1). -/
  pending : List (Event V)
  /-- The model's own: the word the last HostRead returned to the HOST agent (R83; log 8). -/
  hostData : V
  /-- The model's own: the number of sample periods processed so far; only the opaque constants of Config read it (log 17). -/
  draws : Nat
  deriving DecidableEq, Repr

/-- LC = 0 (R46). -/
def lcUninit : BitVec 2 := 0#2

/-- LC = 1 (R46). -/
def lcPrepared : BitVec 2 := 1#2

/-- LC = 2 (R46). -/
def lcActive : BitVec 2 := 2#2

/-- The block right after power-on reset, for any parameters: the POR column of R32, status 0x00 and data 0 in the response
registers, no word of BUF or BLK written (R54, R310). `zero` and `zeroRate` are +0.0 of the two number types. -/
def State.powerOn {V W : Type} (k : Config.Params) (zero : V) (zeroRate : W) : State V W k.chMax where
  rateReg := k.rateDef
  depthReg := k.depthDef
  dirty := false
  freq := k.rateDef
  width := k.depthDef
  phase := zero
  widx := 0
  lReg := 1
  sr := 0x0000000000000000#64
  invSr := zeroRate
  maxblk := 0
  lc := lcUninit
  hStatus := 0x00#8
  hRdata := 0
  cStatus := 0x00#8
  cRdata := 0
  buf := Vector.replicate k.chMax []
  blk := Vector.replicate k.chMax []
  pending := []
  hostData := zero
  draws := 0

/-- This hardware right after power-on reset. -/
def State.reset : State := State.powerOn Config.params 0x00000000#32 0x0000000000000000#64

end Sys2Proof.Machine
end

