-- ==== Sys2Proof/Machine/Design.lean ====
section
/-! DEFINITION. What the rules leave to the configuration: the parameters and the arithmetic. Spec: 00_scope.md R7, R15;
10_state.md R55; 41_oscillator.md R171. -/

namespace Sys2Proof.Machine

open Sys2Proof

/-- A configuration of the block: the parameters of R7, LFO_FN, and the rules whose text is arithmetic, under one reading of
NUMERICS. Every other rule is written once over this (Ops, Engine, ParameterStore, Lifecycle, Parametric). `V` is the type of
samples and phases, `W` that of INV_SR. A sample period `t` reaches only free values. -/
structure Design (V W : Type) where
  params : Config.Params
  /-- +0.0 as a sample. -/
  zero : V
  /-- +0.0 as a reciprocal rate. -/
  zeroRate : W
  /-- What an unwritten word of BUF reads as (93_implementation_defined.md I8). -/
  unwrittenBuf : (c i : Nat) → V
  /-- What HostRead of an unwritten word of BLK returns (93_implementation_defined.md I10). -/
  unwrittenBlk : (c n : Nat) → V
  /-- INV_SR for an accepted rate (44_lifecycle.md R252). -/
  invSr : F64 → W
  /-- Lsize (42_delay_line.md R193). -/
  lsize : F64 → Nat
  /-- LFO_FN (41_oscillator.md R171). -/
  lfo : V → V
  /-- PHASE_ADV (41_oscillator.md R173): the phase after one sample period, from FREQ, INV_SR and the phase. -/
  phaseAdv : (t : Nat) → F32 → W → V → V
  /-- DL_READ up to its memory reads (42_delay_line.md R195): i0 and fr, from w, L, WIDTH, SR and m; none when the read position
  is no index. -/
  tap : (t w len : Nat) → F32 → F64 → V → Option (Nat × V)
  /-- The last line of DL_READ (42_delay_line.md R195): y from fr, b0 and b1. -/
  interpolate : (t : Nat) → V → V → V → V

end Sys2Proof.Machine
end

