-- ==== Sys2Proof/Machine/Flags.lean ====
section
/-! DEFINITION. Status codes and flags. Spec: 60_exceptions.md R281 (codes), 10_state.md R47, R53 (flags). -/

namespace Sys2Proof.Machine

open Sys2Proof

/-- The status codes of R281. -/
inductive Status where
  | ok
  | notPrepared
  | paramClamped
  /-- Reserved for the source's error kind and never raised (R295). -/
  | sampleRateChange
  | deserializeFailure
  | illegalCommand
  | wrongPort
  | badSampleRate
  | bounds
  | paramNan
  deriving DecidableEq, Repr

/-- The 8-bit code of a status (R281). -/
def Status.code : Status → BitVec 8
  | .ok => 0x00#8
  | .notPrepared => 0x01#8
  | .paramClamped => 0x02#8
  | .sampleRateChange => 0x03#8
  | .deserializeFailure => 0x04#8
  | .illegalCommand => 0x10#8
  | .wrongPort => 0x11#8
  | .badSampleRate => 0x12#8
  | .bounds => 0x13#8
  | .paramNan => 0x14#8

/-- The status of a store write: PARAM_CLAMPED when a value was clamped (R142, R147). -/
def Status.ofClamped (clamped : Bool) : Status := if clamped then .paramClamped else .ok

/-- isPrepared = (LC ≠ 0) (R47). -/
def State.isPrepared {V W : Type} {ch : Nat} (s : State V W ch) : Bool := s.lc != lcUninit

end Sys2Proof.Machine
end

