-- ==== Sys2Proof/Machine/Operands.lean ====
section
/-! DEFINITION. The operand checks of the commands. Spec: 40_parameter_store.md R141 (clamp), 44_lifecycle.md R253 (sample
rate), 43_engine.md R227 (block bounds). Each check takes the parameters of R7, which are this hardware's when none are given. -/

namespace Sys2Proof.Machine

open Sys2Proof

/-- The lower bound of a parameter (R141). -/
def paramLo (pid : ParamId) (k : Config.Params := Config.params) : F32 :=
  match pid with
  | .rate => k.rateMin
  | .depth => k.depthMin

/-- The upper bound of a parameter (R141). -/
def paramHi (pid : ParamId) (k : Config.Params := Config.params) : F32 :=
  match pid with
  | .rate => k.rateMax
  | .depth => k.depthMax

/-- CLAMP(v, lo, hi) (R141). -/
def clamp (v lo hi : F32) : F32 := if F32.lt v lo then lo else if F32.lt hi v then hi else v

/-- clamped(v, lo, hi) (R141). -/
def isClamped (v lo hi : F32) : Bool := F32.lt v lo || F32.lt hi v

/-- The clamp of a parameter's value to its own bounds. -/
def clampParam (pid : ParamId) (v : F32) (k : Config.Params := Config.params) : F32 := clamp v (paramLo pid k) (paramHi pid k)

/-- Whether a parameter's value lies outside its own bounds. -/
def isClampedParam (pid : ParamId) (v : F32) (k : Config.Params := Config.params) : Bool :=
  isClamped v (paramLo pid k) (paramHi pid k)

/-- The sample rates PREPARE refuses: NaN, or outside [SR_MIN, SR_MAX] (R253). -/
def badSampleRate (sr : F64) (k : Config.Params := Config.params) : Bool :=
  F64.isNaN sr || F64.lt sr k.srMin || F64.lt k.srMax sr

/-- A channel or sample count above its capacity (R227). -/
def outOfBounds (nin nout nsamp : Nat) (k : Config.Params := Config.params) : Bool :=
  decide (k.chMax < nin) || decide (k.chMax < nout) || decide (k.blockCap < nsamp)

end Sys2Proof.Machine
end

