-- ==== Sys2Proof/Machine/Ops.lean ====
section
/-! DEFINITION. The named operations over the block's memories and registers: word access, responses, REFRESH, ClearBuf and
the host actions. Spec: 00_scope.md R10, R11; 20_memory.md R81–R83, R89, R100; 30_encoding.md R126; 40_parameter_store.md R144;
42_delay_line.md R201; 60_exceptions.md R280–R285. -/

namespace Sys2Proof.Machine

open Sys2Proof

/-! ## One bank of words -/

namespace Bank

/-- The word at an index, none when nothing has written it. -/
def read? {V : Type} : Bank V → Nat → Option V
  | [], _ => none
  | (j, v) :: rest, i => if j = i then some v else read? rest i

/-- Write one word; the indexes stay strictly rising. -/
def write {V : Type} : Bank V → Nat → V → Bank V
  | [], i, v => [(i, v)]
  | (j, u) :: rest, i, v =>
    if i < j then (i, v) :: (j, u) :: rest
    else if i = j then (i, v) :: rest
    else (j, u) :: write rest i v

/-- Write +0.0 to the words 0 … n−1 and leave the others as they are. -/
def clear {V : Type} (b : Bank V) (n : Nat) (zero : V) : Bank V :=
  (List.range n).map (fun i => (i, zero)) ++ b.filter (fun e => decide (n ≤ e.1))

/-- The canonical form: indexes strictly rising and below the capacity. An unlisted word holds no value, so no entry can
equal what an unlisted word reads as (log 5). -/
abbrev wf {V : Type} (cap : Nat) (b : Bank V) : Prop := b.Pairwise (fun x y => x.1 < y.1) ∧ ∀ e ∈ b, e.1 < cap

end Bank

/-- Every bank of a memory is in canonical form. -/
abbrev Memory.wf {V : Type} {ch : Nat} (cap : Nat) (m : Memory V ch) : Prop := ∀ b ∈ m.toList, Bank.wf cap b

/-- Both memories are in canonical form (20_memory.md R81, R82). -/
abbrev State.memWf {V W : Type} {ch : Nat} (s : State V W ch) (k : Config.Params := Config.params) : Prop :=
  Memory.wf k.bufCap s.buf ∧ Memory.wf k.blockCap s.blk

section
variable {V W : Type} {ch : Nat} (d : Design V W) (s : State V W ch)

/-- The word BUF[c][i], none when there is no such word or nothing has written it. -/
def State.bufWord? (c i : Nat) : Option V := (s.buf[c]?).bind (Bank.read? · i)

/-- The word BLK[c][n], none when there is no such word or nothing has written it. -/
def State.blkWord? (c n : Nat) : Option V := (s.blk[c]?).bind (Bank.read? · n)

/-! ## Access from inside a command: INDEX_RANGE, never a wrap or a clip (R89) -/

/-- MemRead(BUF[c], i, 1) of the live delay line 0 … len−1; an unwritten word is a free value (I8, log 7). -/
def Design.bufRead (b : Bank V) (len c i : Nat) : Except Fault V :=
  if i < len ∧ i < d.params.bufCap then .ok ((b.read? i).getD (d.unwrittenBuf c i)) else .error .indexRange

/-- MemWrite(BUF[c], i, 1, v) of the live delay line 0 … len−1. -/
def Design.bufWrite (b : Bank V) (len i : Nat) (v : V) : Except Fault (Bank V) :=
  if i < len ∧ i < d.params.bufCap then .ok (b.write i v) else .error .indexRange

/-- MemRead(BLK[c], n, 1) of an input sample; UNWRITTEN_INPUT when nothing has written it (R100). -/
def Design.blkRead (b : Bank V) (c n : Nat) : Except Fault V :=
  if n < d.params.blockCap then
    match b.read? n with
    | some v => .ok v
    | none => .error (.unwrittenInput c n)
  else .error .indexRange

/-- MemWrite(BLK[c], n, 1, v). -/
def Design.blkWrite (b : Bank V) (n : Nat) (v : V) : Except Fault (Bank V) :=
  if n < d.params.blockCap then .ok (b.write n v) else .error .indexRange

/-! ## Responses (R11, R48, R126) -/

/-- `respond(S, d)`: write a port's status and data registers, and nothing else. -/
def State.respond (port : Port) (st : Status) (data : BitVec 64) : State V W ch :=
  match port with
  | .host => { s with hStatus := st.code, hRdata := data }
  | .ctrl => { s with cStatus := st.code, cRdata := data }

/-- `raise S`: the whole of taking an error. No state is saved, no mode changes, no vector is taken (60_exceptions.md R285);
there is nothing to return from (R286). -/
def State.raise (port : Port) (st : Status) : State V W ch := s.respond port st 0

/-! ## Micro-operations on registers and whole memories -/

/-- REFRESH (40_parameter_store.md R144). -/
def State.refresh : State V W ch := { s with freq := s.rateReg, width := s.depthReg, dirty := false }

/-- ClearBuf (42_delay_line.md R201): +0.0 in the words 0 … L_REG−1 of every channel. -/
def State.clearBuf : Except Fault (State V W ch) :=
  if s.lReg ≤ d.params.bufCap then .ok { s with buf := s.buf.map (Bank.clear · s.lReg d.zero) } else .error .indexRange

/-! ## Host actions (R83) -/

/-- HostWrite(c, n, v). -/
def State.hostWrite (c n : Nat) (v : V) : Host.Outcome (State V W ch) Fault Refusal :=
  if h : c < ch then
    if n < d.params.blockCap then .next { s with blk := s.blk.set c (s.blk[c].write n v) }
    else .fault (.hostStuck c n)
  else .fault (.hostStuck c n)

/-- HostRead(c, n): the word goes to the HOST agent, and nothing of the block changes. A word that nothing has written reads as
its free value (I10, log 8), the same at every read (R87). -/
def State.hostRead (c n : Nat) : Host.Outcome (State V W ch) Fault Refusal :=
  if c < ch ∧ n < d.params.blockCap then .next { s with hostData := (s.blkWord? c n).getD (d.unwrittenBlk c n) }
  else .fault (.hostStuck c n)

/-- The outcome of a command that may meet a model fault. -/
def outcomeOf : Except Fault (State V W ch) → Host.Outcome (State V W ch) Fault Refusal
  | .ok s => .next s
  | .error f => .fault f

end

end Sys2Proof.Machine
end

