-- ==== Sys2Proof/Machine/DelayLine.lean ====
section
/-! DEFINITION. The circular delay line and the linear fractional-delay interpolator: sizing, DL_READ and DL_WRITE.
Spec: 42_delay_line.md R190–R201. `t` is the sample period, which only free values read. -/

namespace Sys2Proof.Machine

open Sys2Proof

/-- Lsize(sr) (R193). -/
def lsize (sr : F64) (k : Config.Params := Config.params) : Nat :=
  (rnd64 ((F32.val k.depthMax).mul (F64.val sr))).val.ceilNat + k.lMargin

/-- cd, the current delay in seconds (R191). -/
def currentDelay (t : Nat) (width m : F32) : F32 :=
  rnd32 (Config.nanBits t .currentDelay width m) ((F32.val width).mul (F32.val m))

/-- off, the read offset in samples (R191). -/
def readOffset (cd : F32) (sr : F64) : F64 := rnd64 ((F32.val cd).mul (F64.val sr))

/-- num, the numerator of the read position (R192); the integer w + L − RMARGIN is formed exactly. -/
def readNumerator (w len : Nat) (off : F64) (k : Config.Params := Config.params) : F64 :=
  rnd64 ((Exact.ofInt ((w : Int) + (len : Int) - (k.rMargin : Int))).sub (F64.val off))

/-- dpr, the read position (R192), which needs no rounding. -/
def readPosition (w len : Nat) (off : F64) (k : Config.Params := Config.params) : Exact :=
  (readNumerator w len off k).val.fmod (.ofInt len)

/-- fr, the fraction of the read position above its floor i0 (R195). -/
def readFraction (t : Nat) (dpr : Exact) (i0 : Nat) : F32 :=
  rnd32 (Config.nanBits t .fraction 0 0) (dpr.sub (.ofInt i0))

/-- y, the linear interpolation between the two taps (R195). -/
def interpolate (t : Nat) (fr b0 b1 : F32) : F32 :=
  let hi := rnd32 (Config.nanBits t .tap1 fr b1) ((F32.val fr).mul (F32.val b1))
  let weight := rnd32 (Config.nanBits t .weight fr 0) ((Exact.ofInt 1).sub (F32.val fr))
  let lo := rnd32 (Config.nanBits t .tap0 weight b0) ((F32.val weight).mul (F32.val b0))
  rnd32 (Config.nanBits t .tapSum hi lo) ((F32.val hi).add (F32.val lo))

/-- i0 and fr of DL_READ (R195), from w, L, WIDTH, SR and m; none when the read position is no index. -/
def readTap (t w len : Nat) (width : F32) (sr : F64) (m : F32) (k : Config.Params := Config.params) : Option (Nat × F32) :=
  let dpr := readPosition w len (readOffset (currentDelay t width m) sr) k
  dpr.floorNat?.map fun i0 => (i0, readFraction t dpr i0)

section
variable {V W : Type} (d : Design V W)

/-- DL_READ (R195) of channel c: `b` is BUF[c], `len` is L_REG. -/
def Design.dlRead (t c : Nat) (width : F32) (sr : F64) (len : Nat) (b : Bank V) (w : Nat) (m : V) : Except Fault V :=
  match d.tap t w len width sr m with
  | none => .error .indexRange
  | some (i0, fr) =>
    match d.bufRead b len c ((i0 + 1) % len), d.bufRead b len c i0 with
    | .ok b1, .ok b0 => .ok (d.interpolate t fr b0 b1)
    | _, _ => .error .indexRange

/-- The write index after a DL_WRITE (R197). -/
def nextIndex (len w : Nat) : Nat := if w + 1 = len then 0 else w + 1

/-- DL_WRITE (R197): store the sample at the write index; the index advances by `nextIndex`. -/
def Design.dlWrite (len : Nat) (b : Bank V) (w : Nat) (x : V) : Except Fault (Bank V) := d.bufWrite b len w x

end

end Sys2Proof.Machine
end

