-- ==== Sys2Proof/Machine/Oscillator.lean ====
section
/-! DEFINITION. The oscillator: LFO_FN, LFO_EVAL and PHASE_ADV. Spec: 41_oscillator.md R170–R176. -/

namespace Sys2Proof.Machine

open Sys2Proof

/-! ## The shape function (R171) -/

/-- π to 20 decimals. -/
def piApprox : ℚ := 314159265358979323846 / 100000000000000000000

/-- The Taylor polynomial of sin of degree 13. -/
def sinPoly (y : ℚ) : ℚ :=
  y - y ^ 3 / 6 + y ^ 5 / 120 - y ^ 7 / 5040 + y ^ 9 / 362880 - y ^ 11 / 39916800 + y ^ 13 / 6227020800

/-- For 0 ≤ v < 1 the u in [−1/4, 1/4] with sin(2π·u) = sin(2π·v). -/
def quarterFold (v : ℚ) : ℚ := if v ≤ 1 / 4 then v else if v ≤ 3 / 4 then 1 / 2 - v else v - 1

/-- 0.5 + 0.5·sin(2π·v) in units of 2^(−23), to the nearest unit. -/
def lfoUnits (v : ℚ) : Nat :=
  min (2 ^ 23) (⌊(1 / 2 + 1 / 2 * sinPoly (2 * piApprox * quarterFold v)) * 2 ^ 23 + 1 / 2⌋).toNat

/-- A value that R171 allows for LFO_FN(p): it shows that there is one, and stands where `Config.lfoPick` gives none. No
proof can tell whether it is the machine's (log 9). -/
def lfoFallback (p : F32) : F32 := rnd32 0 (.fin false (lfoUnits (F32.toRat p)) (2 ^ 23))

/-- LFO_FN (R171): the configuration's open choice. -/
def lfoFn (p : F32) : F32 :=
  match Config.lfoPick p with
  | some m => m.1
  | none => lfoFallback p

/-! ## Micro-operations -/

/-- The phase increment delta (R173), in sample period `t`. -/
def phaseDelta (t : Nat) (freq : F32) (invSr : F64) : F32 :=
  rnd32 (Config.nanBits t .delta freq 0) (rnd64 ((F32.val freq).mul (F64.val invSr))).val

/-- PHASE_ADV (R173): add delta, and wrap by one subtraction. -/
def phaseAdv (t : Nat) (freq : F32) (invSr : F64) (p : F32) : F32 :=
  let delta := phaseDelta t freq invSr
  let q := rnd32 (Config.nanBits t .phaseSum p delta) ((F32.val p).add (F32.val delta))
  if F32.le 0x3F800000#32 q then rnd32 (Config.nanBits t .phaseWrap q 0) ((F32.val q).sub (.ofInt 1)) else q

end Sys2Proof.Machine
end

