-- ==== Sys2Proof/Machine/Binary32.lean ====
section
/-! DEFINITION. The arithmetic of NUMERICS = Binary32, and this hardware. Spec: 00_scope.md R7, R15. -/

namespace Sys2Proof.Machine

open Sys2Proof

/-- The block under NUMERICS = Binary32, for any parameters and any shape function. -/
def binary32 (k : Config.Params) (lfo : F32 → F32) : Design F32 F64 where
  params := k
  zero := 0x00000000#32
  zeroRate := 0x0000000000000000#64
  unwrittenBuf := Config.bufUnwritten
  unwrittenBlk := Config.blkUnwritten
  invSr sr := rnd64 (F64.val sr).recip
  lsize sr := lsize sr k
  lfo := lfo
  phaseAdv := phaseAdv
  tap t w len width sr m := readTap t w len width sr m k
  interpolate := interpolate

/-- This hardware: the parameters of R7, of which NUMERICS is Binary32, and LFO_FN. -/
def hardware : Design F32 F64 := binary32 Config.params lfoFn

end Sys2Proof.Machine
end

