-- ==== Sys2Proof/Machine/Engine.lean ====
section
/-! DEFINITION. The vibrato engine: SAMPLE_STEP, the channel loop and PROCESS_BLOCK. Spec: 43_engine.md R220–R228;
10_state.md R46, R51, R52; 20_memory.md R89, R100.

Everything but the last definition is written over a design: its parameters, its LFO_FN and its arithmetic (R55). -/

namespace Sys2Proof.Machine

open Sys2Proof

/-- What every sample of one block reads and none writes (R228), after the entry REFRESH. -/
structure BlockEnv (W : Type) where
  freq  : F32
  width : F32
  sr    : F64
  invSr : W
  /-- L_REG. -/
  len   : Nat
  /-- The sample-period counter at the block's entry; sample n is the sample period `base + n`. -/
  base  : Nat
  deriving DecidableEq, Repr

/-- A channel as a lane (R228): BUF[c], BLK[c], and the local phase and write index (R52). -/
structure Lane (V : Type) where
  buf : Bank V
  blk : Bank V
  p   : V
  w   : Nat
  deriving DecidableEq, Repr

/-- The memories and the last local phase and write index, as the channel loop builds them (R220). -/
structure Lanes (V : Type) (ch : Nat) where
  buf  : Memory V ch
  blk  : Memory V ch
  pEnd : V
  wEnd : Nat
  deriving DecidableEq, Repr

section
variable {V W : Type} {ch : Nat} (d : Design V W)

/-- LFO_EVAL (41_oscillator.md R172): m from the phase before this sample's advance. -/
def Design.lfoEval (p : V) : V := d.lfo p

/-- SAMPLE_STEP(c, n, p, w) (R221). -/
def Design.sampleStep (e : BlockEnv W) (c n : Nat) (l : Lane V) : Except Fault (Lane V) := do
  let x ← d.blkRead l.blk c n
  let m := d.lfoEval l.p
  let y ← d.dlRead (e.base + n) c e.width e.sr e.len l.buf l.w m
  let buf ← d.dlWrite e.len l.buf l.w x
  let blk ← d.blkWrite l.blk n y
  return { buf := buf, blk := blk, p := d.phaseAdv (e.base + n) e.freq e.invSr l.p, w := nextIndex e.len l.w }

/-- The sample loop of one channel (R220): `count` samples from index n on. -/
def Design.runSamples (e : BlockEnv W) (c : Nat) : (count : Nat) → (n : Nat) → Lane V → Except Fault (Lane V)
  | 0, _, l => .ok l
  | count + 1, n, l => do
    let l' ← d.sampleStep e c n l
    Design.runSamples e c count (n + 1) l'

/-- The channel loop (R220, R222): `count` channels from c on, each from the same start phase and write index. -/
def Design.runChannels (e : BlockEnv W) (nsamp : Nat) (p0 : V) (w0 : Nat) :
    (count : Nat) → (c : Nat) → Lanes V ch → Except Fault (Lanes V ch)
  | 0, _, ls => .ok ls
  | count + 1, c, ls =>
    if h : c < ch then do
      let l ← d.runSamples e c nsamp 0 { buf := ls.buf[c], blk := ls.blk[c], p := p0, w := w0 }
      Design.runChannels e nsamp p0 w0 count (c + 1)
        { buf := ls.buf.set c l.buf, blk := ls.blk.set c l.blk, pEnd := l.p, wEnd := l.w }
    else .error .indexRange

/-- The clearing of output channels lo … hi−1 over nsamp words (R223). -/
def clearChannels (blk : Memory V ch) (lo hi nsamp : Nat) (zero : V) : Memory V ch :=
  blk.mapIdx fun c b => if lo ≤ c ∧ c < hi then b.clear nsamp zero else b

/-- What a block reads besides its memories, from the state after the entry REFRESH. -/
def State.blockEnv (s : State V W ch) : BlockEnv W :=
  { freq := s.freq, width := s.width, sr := s.sr, invSr := s.invSr, len := s.lReg, base := s.draws }

/-- The body of PROCESS_BLOCK after its guards and its entry REFRESH (R220): process channels 0 … NIN−1, write the phase and
the write index back, clear channels NIN … NOUT−1, respond. -/
def Design.blockBody (nin nout nsamp : Nat) (s : State V W ch) : Except Fault (State V W ch) := do
  let ls ← d.runChannels s.blockEnv nsamp s.phase s.widx nin 0
    { buf := s.buf, blk := s.blk, pEnd := s.phase, wEnd := s.widx }
  let s' : State V W ch :=
    { s with buf := ls.buf, blk := clearChannels ls.blk nin nout nsamp d.zero, phase := ls.pEnd, widx := ls.wEnd,
             draws := s.draws + nsamp }
  return s'.respond .host .ok 0

/-- The entry REFRESH (R225). -/
def State.refreshIfDirty (s : State V W ch) : State V W ch := if s.dirty then s.refresh else s

/-- PROCESS_BLOCK (R220): the not-prepared guard, the bounds check, the entry REFRESH, the body. -/
def Design.processBlock (nin nout nsamp : Nat) (s : State V W ch) : Host.Outcome (State V W ch) Fault Refusal :=
  if s.lc = 3#2 then .fault .lifecycleReserved
  else if !s.isPrepared then .next (s.raise .host .notPrepared)
  else if outOfBounds nin nout nsamp d.params then .next (s.raise .host .bounds)
  else outcomeOf (d.blockBody nin nout nsamp s.refreshIfDirty)

end

/-- PROCESS_BLOCK (R220) of this hardware. -/
def execProcessBlock (nin nout nsamp : Nat) (s : State) : Host.Outcome State Fault Refusal :=
  hardware.processBlock nin nout nsamp s

end Sys2Proof.Machine
end

