-- ==== Sys2Proof/Machine/Lifecycle.lean ====
section
/-! DEFINITION. INIT, PREPARE and RESET. Spec: 44_lifecycle.md R250–R256; 70_reset_and_hazards.md R312. -/

namespace Sys2Proof.Machine

open Sys2Proof

section
variable {V W : Type} {ch : Nat} (d : Design V W)

/-- The register writes that INIT and power-on reset share (R251, R310). -/
def Design.initRegisters (s : State V W ch) : State V W ch :=
  { s with
    rateReg := d.params.rateDef, depthReg := d.params.depthDef, dirty := false
    freq := d.params.rateDef, width := d.params.depthDef
    phase := d.zero, widx := 0, lReg := 1
    sr := 0x0000000000000000#64, invSr := d.zeroRate, maxblk := 0
    lc := lcUninit }

/-- INIT (R251). -/
def Design.init (s : State V W ch) : Host.Outcome (State V W ch) Fault Refusal :=
  .next ((d.initRegisters s).respond .host .ok 0)

/-- PREPARE's writes before its ClearBuf (R252). -/
def Design.setSampleRate (s : State V W ch) (maxblk : Nat) (sr : F64) : State V W ch :=
  { s with sr := sr, invSr := d.invSr sr, lReg := d.lsize sr, maxblk := maxblk }

/-- PREPARE's writes after its ClearBuf (R252): zero the oscillator and the write index, pass through PREPARED, refresh,
become ACTIVE. -/
def Design.activate (s : State V W ch) : State V W ch :=
  { State.refresh { s with phase := d.zero, widx := 0, lc := lcPrepared } with lc := lcActive }

/-- PREPARE (R252). -/
def Design.prepare (maxblk : Nat) (sr : F64) (s : State V W ch) : Host.Outcome (State V W ch) Fault Refusal :=
  if badSampleRate sr d.params then .next (s.raise .host .badSampleRate)
  else outcomeOf (((d.setSampleRate s maxblk sr).clearBuf d).map fun s' => (d.activate s').respond .host .ok 0)

/-- RESET (R254). -/
def Design.reset (s : State V W ch) : Host.Outcome (State V W ch) Fault Refusal :=
  outcomeOf ((s.clearBuf d).map fun s' => s'.respond .host .ok 0)

end

/-- INIT (R251) of this hardware. -/
def execInit (s : State) : Host.Outcome State Fault Refusal := hardware.init s

/-- PREPARE (R252) of this hardware. -/
def execPrepare (maxblk : Nat) (sr : F64) (s : State) : Host.Outcome State Fault Refusal := hardware.prepare maxblk sr s

/-- RESET (R254) of this hardware. -/
def execReset (s : State) : Host.Outcome State Fault Refusal := hardware.reset s

end Sys2Proof.Machine
end

