-- ==== Sys2Proof/Machine/ParameterStore.lean ====
section
/-! DEFINITION. SET_PARAM, READ_PARAMS and LOAD_PARAMS. Spec: 40_parameter_store.md R140–R150. -/

namespace Sys2Proof.Machine

open Sys2Proof

section
variable {V W : Type} {ch : Nat} (d : Design V W)

/-- Write one store register and set DIRTY (R142, R143). -/
def State.storeParam (s : State V W ch) (pid : ParamId) (c : F32) : State V W ch :=
  match pid with
  | .rate => { s with rateReg := c, dirty := true }
  | .depth => { s with depthReg := c, dirty := true }

/-- SET_PARAM (R142). -/
def Design.setParam (pid : ParamId) (value : F32) (s : State V W ch) : Host.Outcome (State V W ch) Fault Refusal :=
  if F32.isNaN value then .next (s.raise .ctrl .paramNan)
  else
    .next ((s.storeParam pid (clampParam pid value d.params)).respond .ctrl
      (.ofClamped (isClampedParam pid value d.params)) 0)

/-- READ_PARAMS (R146): the data is DEPTH_REG above RATE_REG. -/
def State.readParams (s : State V W ch) : Host.Outcome (State V W ch) Fault Refusal :=
  .next (s.respond .ctrl .ok (s.depthReg ++ s.rateReg))

/-- LOAD_PARAMS (R147). -/
def Design.loadParams (ok : Bool) (rate depth : F32) (s : State V W ch) : Host.Outcome (State V W ch) Fault Refusal :=
  if !ok then .next (s.raise .ctrl .deserializeFailure)
  else if F32.isNaN rate || F32.isNaN depth then .next (s.raise .ctrl .deserializeFailure)
  else
    .next (((s.storeParam .rate (clampParam .rate rate d.params)).storeParam .depth
        (clampParam .depth depth d.params)).respond .ctrl
      (.ofClamped (isClampedParam .rate rate d.params || isClampedParam .depth depth d.params)) 0)

end

/-- SET_PARAM (R142) of this hardware. -/
def execSetParam (pid : ParamId) (value : F32) (s : State) : Host.Outcome State Fault Refusal :=
  hardware.setParam pid value s

/-- READ_PARAMS (R146) of this hardware. -/
def execReadParams (s : State) : Host.Outcome State Fault Refusal := s.readParams

/-- LOAD_PARAMS (R147) of this hardware. -/
def execLoadParams (ok : Bool) (rate depth : F32) (s : State) : Host.Outcome State Fault Refusal :=
  hardware.loadParams ok rate depth s

end Sys2Proof.Machine
end

