-- ==== Sys2Proof/Machine/Dispatch.lean ====
section
/-! DEFINITION. One arm per command (30_encoding.md R118). `exec i s` is the command's atomic transition, on the port that
accepts it. -/

namespace Sys2Proof.Machine

open Sys2Proof

def exec (i : Instr) (s : State) : Host.Outcome State Fault Refusal :=
  match i with
  | .init => Sys2Proof.Machine.execInit s
  | .prepare maxblk sr => Sys2Proof.Machine.execPrepare maxblk sr s
  | .processBlock nin nout nsamp => Sys2Proof.Machine.execProcessBlock nin nout nsamp s
  | .reset => Sys2Proof.Machine.execReset s
  | .setParam pid value => Sys2Proof.Machine.execSetParam pid value s
  | .readParams => Sys2Proof.Machine.execReadParams s
  | .loadParams ok rate depth => Sys2Proof.Machine.execLoadParams ok rate depth s

end Sys2Proof.Machine
end

