-- ==== Sys2Proof/Machine/Step.lean ====
section
/-! DEFINITION. One transition of the block: the next thing an agent does. Spec: 20_memory.md R91 (interleavings of atomic
command transitions), 30_encoding.md R124 (decode order), 60_exceptions.md R294 (between commands the block is idle). -/

namespace Sys2Proof.Machine

open Sys2Proof

/-- One packet on one port: run its command, or raise ILLEGAL_COMMAND or WRONG_PORT on the port it arrived on (R119, R120,
R124). -/
def State.receive (s : State) (port : Port) (p : Packet) : Host.Outcome State Fault Refusal :=
  match deliver port p with
  | .run i => exec i s
  | .illegal _ => .next (s.raise port .illegalCommand)
  | .wrongPort _ => .next (s.raise port .wrongPort)

/-- The next event of the interleaving happens; with none left the block is idle and holds all state (R294, log 3). -/
def step (s : State) : Host.Outcome State Fault Refusal :=
  match s.pending with
  | [] => .next s
  | .packet port p :: rest => State.receive { s with pending := rest } port p
  | .hostWrite c n v :: rest => State.hostWrite hardware { s with pending := rest } c n v
  | .hostRead c n :: rest => State.hostRead hardware { s with pending := rest } c n

/-- `s` with the packet of an opcode-table word as the next event, on the port that accepts it (log 2). -/
def State.withFetchWord (s : State) (nbits w : Nat) : State :=
  { s with pending := .packet (Packet.ownPort (Packet.ofTableBits nbits w)) (Packet.ofTableBits nbits w) :: s.pending }

end Sys2Proof.Machine
end

