-- ==== Sys2Proof/Machine/Assembler.lean ====
section
/-! DEFINITION. The assembly syntax of the spec's programs: one command or host action a line. Spec: 30_encoding.md R127
(syntax, operand forms, refusal of an operand that does not fit), R128 (pseudo-instructions and host actions). -/

namespace Sys2Proof.Machine.Assembler

open Sys2Proof Sys2Proof.Machine

/-- Why a line is refused. -/
inductive AsmError where
  | emptyLine
  | unknownMnemonic
  /-- Not as many operands as the mnemonic takes. -/
  | operandCount
  /-- An operand is not of its form. -/
  | badOperand
  /-- An integer operand does not fit its field (R127). -/
  | outOfField
  deriving DecidableEq, Repr

/-! ## Words and operands of a line -/

/-- The pieces of a text between separators. -/
def splitAtChar (sep : Char) : List Char → List (List Char)
  | [] => [[]]
  | c :: cs =>
    if c = sep then [] :: splitAtChar sep cs
    else match splitAtChar sep cs with
      | [] => [[c]]
      | w :: ws => (c :: w) :: ws

/-- A text without its spaces. R127 does not say whether a blank may stand inside an operand: DESIGN CHOICE, every blank of the operands
is dropped, also one inside an operand (log 25). -/
def dropSpaces (cs : List Char) : List Char := cs.filter (· != ' ')

/-- The first word of a text and what follows it. -/
def firstWord (cs : List Char) : List Char × List Char :=
  let cs := cs.dropWhile (· == ' ')
  (cs.takeWhile (· != ' '), cs.dropWhile (· != ' '))

/-- The value of a digit: its place among the digits of the base, given from 0 on. -/
def digitIn (digits : List Char) (c : Char) : Option Nat := digits.idxOf? c

def decimalDigits : List Char := "0123456789".toList

/-- A hexadecimal digit, its letter in either case. -/
def hexDigit? (c : Char) : Option Nat :=
  (digitIn "0123456789ABCDEF".toList c).or (digitIn "0123456789abcdef".toList c)

/-- The number written by a run of digits in a base, most significant first. -/
def readDigits (base : Nat) (digit : Char → Option Nat) : List Char → Nat → Option Nat
  | [], acc => some acc
  | c :: cs, acc => (digit c).bind fun d => readDigits base digit cs (acc * base + d)

/-- A decimal integer operand. -/
def natOperand (cs : List Char) : Option Nat := if cs = [] then none else readDigits 10 (digitIn decimalDigits) cs 0

/-- An unsigned decimal number as an exact fraction. R127 gives no spelling of one: DESIGN CHOICE, digits with at most one point, which
may stand first or last; no exponent (log 26). -/
def unsignedDecimal (neg : Bool) (cs : List Char) : Option Exact :=
  match splitAtChar '.' cs with
  | [whole] => (natOperand whole).map fun n => .fin neg n 1
  | [whole, part] => (natOperand (whole ++ part)).map fun n => .fin neg n (10 ^ part.length)
  | _ => none

/-- A decimal number as an exact fraction. DESIGN CHOICE: a `-` may stand before it, a `+` may not (log 26). -/
def decimal (cs : List Char) : Option Exact :=
  match cs with
  | '-' :: rest => unsignedDecimal true rest
  | _ => unsignedDecimal false cs

/-- An encoding written with exactly `digits` hexadecimal digits. -/
def hexOperand (digits : Nat) (cs : List Char) : Option Nat :=
  match cs with
  | '0' :: 'x' :: rest => if rest.length = digits then readDigits 16 hexDigit? rest 0 else none
  | _ => none

/-- A binary32 operand: an encoding, a special value, or a decimal number rounded by `rnd32` (log 18 for `nan`). -/
def f32Operand (cs : List Char) : Option F32 :=
  if cs = ['n', 'a', 'n'] then some 0x7FC00000#32
  else if cs = ['i', 'n', 'f'] then some 0x7F800000#32
  else if cs = ['-', 'i', 'n', 'f'] then some 0xFF800000#32
  else match hexOperand 8 cs with
    | some v => some (BitVec.ofNat 32 v)
    | none => (decimal cs).map (rnd32 0)

/-- A binary64 operand: an encoding or a decimal number rounded by `rnd64`. -/
def f64Operand (cs : List Char) : Option F64 :=
  match hexOperand 16 cs with
  | some v => some (BitVec.ofNat 64 v)
  | none => (decimal cs).map rnd64

/-! ## One line -/

/-- A command as an event on the given port, or on its own port; refused when an operand does not fit its field. R127 writes `host:` and
`ctrl:` only before the mnemonics of that port: DESIGN CHOICE, a prefix names the port on which the packet arrives, also the other
agent's, which answers WRONG_PORT (log 27). -/
def commandEvent (port : Option Port) (i : Instr) : Except AsmError (List Event) :=
  if i.wellFormed then .ok [.packet (port.getD i.port) (encode i)] else .error .outOfField

/-- A command whose operands may be of a wrong form. -/
def commandOf (port : Option Port) (i : Option Instr) : Except AsmError (List Event) :=
  match i with
  | some i => commandEvent port i
  | none => .error .badOperand

/-- SET_PARAM's name operand. -/
def paramName (cs : List Char) : Option ParamId :=
  if cs = ['r', 'a', 't', 'e'] then some .rate else if cs = ['d', 'e', 'p', 't', 'h'] then some .depth else none

/-- LOAD_PARAMS's ok operand. -/
def okOperand (cs : List Char) : Option Bool :=
  if cs = ['1'] then some true else if cs = ['0'] then some false else none

/-- HostWrite of consecutive words from index n on (R128). -/
def hostWrites (c : Nat) : Nat → List F32 → List Event
  | _, [] => []
  | n, v :: vs => .hostWrite c n v :: hostWrites c (n + 1) vs

/-- The events of HOSTWRITE: one word, or a bracketed list of consecutive words. -/
def hostWriteLine (ops : List (List Char)) : Except AsmError (List Event) :=
  match ops with
  | c :: n :: vs =>
    match natOperand c, splitAtChar '.' n, vs with
    | some c, [n0], [v] =>
      match natOperand n0, f32Operand v with
      | some n, some v => .ok [.hostWrite c n v]
      | _, _ => .error .badOperand
    | some c, [n0, [], []], ('[' :: v0) :: vs =>
      let words := v0 :: vs
      let last := words.getLastD []
      if last.getLast? = some ']' then
        match natOperand n0, (words.dropLast ++ [last.dropLast]).mapM f32Operand with
        | some n, some vs => .ok (hostWrites c n vs)
        | _, _ => .error .badOperand
      else .error .badOperand
    | _, _, _ => .error .badOperand
  | _ => .error .operandCount

/-- The events of one mnemonic with its operands. R127 gives the port prefix to commands only, and R128 says nothing of one on a
HOSTWRITE or HOSTREAD line: DESIGN CHOICE, it is read and has no effect there (log 24). -/
def assembleCommand (port : Option Port) (mnemonic : String) (ops : List (List Char)) : Except AsmError (List Event) :=
  match mnemonic, ops with
  | "INIT", [] => commandEvent port .init
  | "PREPARE", [sr, m] => commandOf port (do return .prepare (← natOperand m) (← f64Operand sr))
  | "PROCESS_BLOCK", [i, o, n] =>
    commandOf port (do return .processBlock (← natOperand i) (← natOperand o) (← natOperand n))
  | "RESET", [] => commandEvent port .reset
  | "SET_PARAM", [name, v] => commandOf port (do return .setParam (← paramName name) (← f32Operand v))
  | "SET_RATE", [v] => commandOf port (do return .setRate (← f32Operand v))
  | "SET_DEPTH", [v] => commandOf port (do return .setDepth (← f32Operand v))
  | "READ_PARAMS", [] => commandEvent port .readParams
  | "LOAD_PARAMS", [k, r, d] =>
    commandOf port (do return .loadParams (← okOperand k) (← f32Operand r) (← f32Operand d))
  | "HOSTWRITE", ops => hostWriteLine ops
  | "HOSTREAD", [c, n] =>
    match natOperand c, natOperand n with
    | some c, some n => .ok [.hostRead c n]
    | _, _ => .error .badOperand
  | m, _ =>
    if m ∈ ["INIT", "PREPARE", "PROCESS_BLOCK", "RESET", "SET_PARAM", "SET_RATE", "SET_DEPTH", "READ_PARAMS",
            "LOAD_PARAMS", "HOSTREAD"]
    then .error .operandCount else .error .unknownMnemonic

/-- The mnemonic of a text and its operands, which commas separate. -/
def assembleBody (port : Option Port) (cs : List Char) : Except AsmError (List Event) :=
  let (mnemonic, rest) := firstWord cs
  if mnemonic = [] then .error .emptyLine
  else
    let ops := if dropSpaces rest = [] then [] else (splitAtChar ',' rest).map dropSpaces
    assembleCommand port (String.ofList mnemonic) ops

/-- A line up to its comment. R127 gives no form of a comment, and the program lines of 95_test_vectors.md L3 end in one: DESIGN CHOICE,
`;` and what follows it are no part of the line (log 28). -/
def withoutComment (line : List Char) : List Char := line.takeWhile (· != ';')

/-- One line of a program: an optional port, then a command or a host action. A line of no form of R127 or R128 is refused (DESIGN
CHOICE, log 28). -/
def assemble (line : List Char) : Except AsmError (List Event) :=
  let line := withoutComment line
  let (word, rest) := firstWord line
  if word = ['h', 'o', 's', 't', ':'] then assembleBody (some .host) rest
  else if word = ['c', 't', 'r', 'l', ':'] then assembleBody (some .ctrl) rest
  else assembleBody none line

end Sys2Proof.Machine.Assembler
end

