-- ==== Sys2Proof/Machine/RealReading.lean ====
section
/-! DEFINITION. The arithmetic of NUMERICS = Real: the rules read over the real numbers, every rounding being the identity
(00_scope.md R15). Spec: 41_oscillator.md R170, R172, R173, R176; 42_delay_line.md R191–R196; 44_lifecycle.md R252. With it every
command runs over the reals (Machine/Parametric.lean); this hardware does not use it, and a claim under one reading says nothing
of the other (log 10). A parameter or a rate is the real number that its encoding stands for: clamps and checks compare, and
round nothing. -/

namespace Sys2Proof.Machine.RealReading

open Sys2Proof

/-- The real number that a finite binary32 encoding stands for. -/
noncomputable def const (x : F32) : ℝ := ((F32.toRat x : ℚ) : ℝ)

/-- The real number that a finite binary64 encoding stands for. -/
noncomputable def rate (x : F64) : ℝ := ((F64.toRat x : ℚ) : ℝ)

/-- LFO_FN(p) = 0.5 + 0.5·sin(2π·p), exactly (R15, R170). -/
noncomputable def lfo (p : ℝ) : ℝ := 1 / 2 + 1 / 2 * Real.sin (2 * Real.pi * p)

/-- PHASE_ADV (R173), from FREQ and INV_SR: one subtraction wraps. -/
noncomputable def phaseAdv (freq invSr p : ℝ) : ℝ :=
  if 1 ≤ p + freq * invSr then p + freq * invSr - 1 else p + freq * invSr

/-- off = (WIDTH · m) · SR (R191). -/
noncomputable def readOffset (width m sr : ℝ) : ℝ := width * m * sr

/-- Lsize(sr) (R193). -/
noncomputable def lsize (sr : ℝ) (k : Config.Params := Config.params) : ℕ := ⌈const k.depthMax * sr⌉₊ + k.lMargin

/-- num = (w + L − RMARGIN) − off (R192). -/
noncomputable def readNumerator (w len : ℕ) (off : ℝ) (k : Config.Params := Config.params) : ℝ :=
  (w : ℝ) + (len : ℝ) - (k.rMargin : ℝ) - off

/-- dpr = fmod(num, L) = num − L·trunc(num/L), for num ≥ 0 (R13, R192). -/
noncomputable def readPosition (w len : ℕ) (off : ℝ) (k : Config.Params := Config.params) : ℝ :=
  readNumerator w len off k - (len : ℝ) * (⌊readNumerator w len off k / (len : ℝ)⌋ : ℝ)

/-- i0 = floor(dpr) and fr = dpr − i0 (R195). For L > 0 the position is not negative; for L = 0 no index is in range, and the
memory read stops by INDEX_RANGE. -/
noncomputable def readTap (w len : ℕ) (width sr m : ℝ) (k : Config.Params := Config.params) : ℕ × ℝ :=
  let dpr := readPosition w len (readOffset width m sr) k
  (⌊dpr⌋₊, dpr - (⌊dpr⌋₊ : ℝ))

/-- y = fr·b1 + (1 − fr)·b0 (R195). -/
noncomputable def interpolate (fr b0 b1 : ℝ) : ℝ := fr * b1 + (1 - fr) * b0

end Sys2Proof.Machine.RealReading

namespace Sys2Proof.Machine

open Sys2Proof

/-- The block under NUMERICS = Real, for any parameters. -/
noncomputable def real (k : Config.Params) : Design ℝ ℝ where
  params := k
  zero := 0
  zeroRate := 0
  unwrittenBuf := Config.bufUnwrittenReal
  unwrittenBlk := Config.blkUnwrittenReal
  invSr sr := 1 / RealReading.rate sr
  lsize sr := RealReading.lsize (RealReading.rate sr) k
  lfo := RealReading.lfo
  phaseAdv _ freq invSr p := RealReading.phaseAdv (RealReading.const freq) invSr p
  tap _ w len width sr m := some (RealReading.readTap w len (RealReading.const width) (RealReading.rate sr) m k)
  interpolate _ := RealReading.interpolate

end Sys2Proof.Machine
end

