-- ==== Sys2Proof/Machine/Parametric.lean ====
section
/-! DEFINITION. The machine as a function of its configuration: the parameters of R7, NUMERICS among them, and LFO_FN. Spec:
00_scope.md R7, R15; 10_state.md R55; 92_eei_decisions.md D6, D8, D10, D19, D33 (the parameters marked OPEN).
Machine/Dispatch.lean and Machine/Step.lean are this machine at the values of this hardware (Laws/Parametric.lean). -/

namespace Sys2Proof.Machine

open Sys2Proof

section
variable {V W : Type} {ch : Nat} (d : Design V W)

/-- The atomic transition of a command (30_encoding.md R118). -/
def Design.exec (i : Instr) (s : State V W ch) : Host.Outcome (State V W ch) Fault Refusal :=
  match i with
  | .init => d.init s
  | .prepare maxblk sr => d.prepare maxblk sr s
  | .processBlock nin nout nsamp => d.processBlock nin nout nsamp s
  | .reset => d.reset s
  | .setParam pid value => d.setParam pid value s
  | .readParams => s.readParams
  | .loadParams ok rate depth => d.loadParams ok rate depth s

/-- One packet on one port (30_encoding.md R124). -/
def Design.receive (s : State V W ch) (port : Port) (p : Packet) : Host.Outcome (State V W ch) Fault Refusal :=
  match deliver port p with
  | .run i => d.exec i s
  | .illegal _ => .next (s.raise port .illegalCommand)
  | .wrongPort _ => .next (s.raise port .wrongPort)

/-- The next event of the interleaving (20_memory.md R91). -/
def Design.step (s : State V W ch) : Host.Outcome (State V W ch) Fault Refusal :=
  match s.pending with
  | [] => .next s
  | .packet port p :: rest => d.receive { s with pending := rest } port p
  | .hostWrite c n v :: rest => State.hostWrite d { s with pending := rest } c n v
  | .hostRead c n :: rest => State.hostRead d { s with pending := rest } c n

end

/-- The machine of a configuration (R7, R15): NUMERICS chooses the arithmetic. -/
noncomputable def machineOf (k : Config.Params) (lfo : F32 → F32) : Host.Core :=
  match k.numerics with
  | .binary32 =>
    { State := State F32 F64 k.chMax, Fault := Fault, Refusal := Refusal, step := (binary32 k lfo).step
      reset := State.powerOn k (binary32 k lfo).zero (binary32 k lfo).zeroRate }
  | .real =>
    { State := State ℝ ℝ k.chMax, Fault := Fault, Refusal := Refusal, step := (real k).step
      reset := State.powerOn k (real k).zero (real k).zeroRate }

end Sys2Proof.Machine
end

