-- ==== Sys2Proof/Safety.lean ====
section
/-! DEFINITION. What counts as a sound state and a safe step, in the terms the claims use. Spec: 10_state.md R35, R38, R40–R46;
20_memory.md R89, R94; 60_exceptions.md R281. -/

namespace Sys2Proof.Machine

open Sys2Proof

/-- The configurations that 00_scope.md R7 calls legal, as far as it gives ranges, with BUF_CAP = Lsize(SR_MAX). -/
def legalParams (k : Config.Params) : Prop :=
  (1 ≤ k.chMax ∧ k.chMax ≤ 15) ∧ (1 ≤ k.blockCap ∧ k.blockCap ≤ 1048575) ∧ k.bufCap = lsize k.srMax k

/-- The invariant of the block: what the spec says holds in every reachable state. -/
structure State.Inv (s : State) : Prop where
  /-- The store invariant (R35). -/
  rate : F32.within Config.rateMin Config.rateMax s.rateReg = true
  depth : F32.within Config.depthMin Config.depthMax s.depthReg = true
  /-- The snapshot's ranges (R37, R38). -/
  freq : F32.within Config.rateMin Config.rateMax s.freq = true
  width : F32.within Config.depthMin Config.depthMax s.width = true
  /-- 0 ≤ PHASE < 1 and PHASE is not NaN (R40). -/
  phase : F32.inUnit s.phase = true
  /-- 1 ≤ L_REG ≤ BUF_CAP (R42). -/
  lRegPos : 1 ≤ s.lReg
  lRegCap : s.lReg ≤ Config.bufCap
  /-- 0 ≤ WIDX < L_REG (R41). -/
  widx : s.widx < s.lReg
  /-- MAXBLK is an integer of 24 bits (R32). -/
  maxblk : s.maxblk < 2 ^ 24
  /-- Between commands LC is UNINIT or ACTIVE (R46). -/
  lifecycle : s.lc = lcUninit ∨ s.lc = lcActive
  /-- Until the first PREPARE the length is the placeholder 1 (R42). -/
  uninit : s.lc = lcUninit → s.lReg = 1 ∧ s.sr = 0 ∧ s.invSr = 0
  /-- After a successful PREPARE the rate registers belong to an accepted rate (R42–R44). -/
  active : s.lc = lcActive →
    badSampleRate s.sr = false ∧ s.invSr = rnd64 (F64.val s.sr).recip ∧ s.lReg = lsize s.sr
  /-- While DIRTY is clear the snapshot is the store (R94). -/
  snapshot : s.dirty = false → s.freq = s.rateReg ∧ s.width = s.depthReg
  /-- Every live word of the delay RAM has been written once the block is ACTIVE (R50). -/
  live : s.lc = lcActive → ∀ c < Config.chMax, ∀ i < s.lReg, (s.bufWord? c i).isSome = true
  /-- Both memories are in canonical form. -/
  memory : s.memWf
  /-- Only the codes that a port's commands raise are ever written (R281), and HOST responses carry no data (R126). -/
  hStatus : s.hStatus ∈ [Status.ok.code, Status.notPrepared.code, Status.illegalCommand.code, Status.wrongPort.code,
    Status.badSampleRate.code, Status.bounds.code]
  cStatus : s.cStatus ∈ [Status.ok.code, Status.paramClamped.code, Status.deserializeFailure.code,
    Status.illegalCommand.code, Status.wrongPort.code, Status.paramNan.code]
  hRdata : s.hRdata = 0

/-- The inputs of a block have all been written by the host or by an earlier block (70_reset_and_hazards.md R317). -/
def State.inputsWritten (s : State) (nin nsamp : Nat) : Prop :=
  ∀ c < nin, ∀ n < nsamp, (s.blkWord? c n).isSome = true

/-- A step that does not stop the model. -/
def Safe (s : State) : Prop := ∃ t, step s = .next t

/-- The phase after `n` PHASE_ADV steps, the first in sample period `t` (41_oscillator.md R173). -/
def phaseAfter (freq : F32) (invSr : F64) : (n : Nat) → (t : Nat) → F32 → F32
  | 0, _, p => p
  | n + 1, t, p => phaseAfter freq invSr n (t + 1) (phaseAdv t freq invSr p)

/-- BUF[c] as the DL_READ of sample `n` of a block that starts in `s` finds it: each earlier input written at the write index, which
advances by one modulo the length (42_delay_line.md R197; 43_engine.md R221). -/
def State.lineBefore (s : State) (c : Nat) : (n : Nat) → Bank
  | 0 => (s.buf[c]?).getD []
  | n + 1 =>
    match s.blkWord? c n with
    | some x => (s.lineBefore c n).write ((s.widx + n) % s.lReg) x
    | none => s.lineBefore c n

end Sys2Proof.Machine
end

