-- ==== Sys2Proof/Certificates/Slice0/Obligations.lean ====
section
/-! DEFINITION. The statements for the provers. Each docstring names the rule of spec/ it formalises or rests on; a clause that is
the model's own choice names its log entry. `Status.code` and `State.respond` are the definitions of 60_exceptions.md R281 and
00_scope.md R11: `respond` writes one port's status and data registers and nothing else. -/

open Sys2Proof Sys2Proof.Machine

/-! ## Encoding (30_encoding.md) -/

/-- Decoding the packet of a well-formed command gives the command back (R110–R118). -/
def Obligations.DecodeOfEncode : Prop :=
  ∀ i : Instr, i.wellFormed = true → decode (encode i) = .ok i

/-- A command that the decoder reads fits its fields, and its packet is the one that was read, up to the payload bits that its
format ignores (R112–R117). -/
def Obligations.EncodeOfDecode : Prop :=
  ∀ (p : Packet) (i : Instr), decode p = .ok i →
    i.wellFormed = true ∧ (encode i).cw = p.cw ∧
    (match i with
      | .prepare _ _ => (encode i).pl = p.pl
      | .loadParams _ _ _ => (encode i).pl = p.pl
      | .setParam _ _ => (encode i).pl.extractLsb' 0 32 = p.pl.extractLsb' 0 32
      | .init => True
      | .processBlock _ _ _ => True
      | .reset => True
      | .readParams => True)

/-- The five encodings of R129: the assembled line is the packet, and the packet decodes to the command; READ_PARAMS and
PROCESS_BLOCK do so with any payload (that the assembler writes 0 there is the model's choice, log 29). -/
def Obligations.EncodingExamples : Prop :=
  (Assembler.assemble "PREPARE 44100.0, 512".toList = .ok [.packet .host ⟨0x20000200#32, 0x40E5888000000000#64⟩] ∧
    decode ⟨0x20000200#32, 0x40E5888000000000#64⟩ = .ok (.prepare 512 0x40E5888000000000#64)) ∧
  (Assembler.assemble "PROCESS_BLOCK 1, 1, 8".toList = .ok [.packet .host ⟨0x31100008#32, 0⟩] ∧
    ∀ pl, decode ⟨0x31100008#32, pl⟩ = .ok (.processBlock 1 1 8)) ∧
  (Assembler.assemble "SET_PARAM depth, 0.03".toList = .ok [.packet .ctrl ⟨0x50000001#32, 0x000000003CF5C28F#64⟩] ∧
    decode ⟨0x50000001#32, 0x000000003CF5C28F#64⟩ = .ok (.setParam .depth 0x3CF5C28F#32)) ∧
  (Assembler.assemble "LOAD_PARAMS 1, 6.0, 0.01".toList = .ok [.packet .ctrl ⟨0x70000001#32, 0x3C23D70A40C00000#64⟩] ∧
    decode ⟨0x70000001#32, 0x3C23D70A40C00000#64⟩ = .ok (.loadParams true 0x40C00000#32 0x3C23D70A#32)) ∧
  (Assembler.assemble "READ_PARAMS".toList = .ok [.packet .ctrl ⟨0x60000000#32, 0⟩] ∧
    ∀ pl, decode ⟨0x60000000#32, pl⟩ = .ok .readParams)

/-- A packet whose OPC is 0x0 or 0x8 … 0xF raises ILLEGAL_COMMAND (0x10) on the port it arrived on, and changes no other state
(R119). -/
def Obligations.ReservedOpcodeIsIllegal : Prop :=
  Status.illegalCommand.code = 0x10#8 ∧
  ∀ (s : State) (port : Port) (p : Packet) (rest : List Event), s.pending = .packet port p :: rest →
    (p.cw.extractLsb' 28 4 = 0x0#4 ∨ 0x8#4 ≤ p.cw.extractLsb' 28 4) →
    step s = .next (State.respond { s with pending := rest } port .illegalCommand 0)

/-- A packet with a defined OPC and a 1 in a reserved field raises ILLEGAL_COMMAND (0x10) on the port it arrived on, and changes
no other state (R120). -/
def Obligations.ReservedBitsAreIllegal : Prop :=
  Status.illegalCommand.code = 0x10#8 ∧
  ∀ (s : State) (port : Port) (p : Packet) (rest : List Event), s.pending = .packet port p :: rest →
    ((p.cw.extractLsb' 28 4 = 0x1#4 ∨ p.cw.extractLsb' 28 4 = 0x4#4 ∨ p.cw.extractLsb' 28 4 = 0x6#4) ∧
        p.cw.extractLsb' 0 28 ≠ 0#28 ∨
      p.cw.extractLsb' 28 4 = 0x2#4 ∧ p.cw.extractLsb' 24 4 ≠ 0#4 ∨
      (p.cw.extractLsb' 28 4 = 0x5#4 ∨ p.cw.extractLsb' 28 4 = 0x7#4) ∧ p.cw.extractLsb' 1 27 ≠ 0#27) →
    step s = .next (State.respond { s with pending := rest } port .illegalCommand 0)

/-- A command on the other agent's port raises WRONG_PORT (0x11) there, and changes no other state (R124, R281). -/
def Obligations.WrongPortIsReported : Prop :=
  Status.wrongPort.code = 0x11#8 ∧
  ∀ (s : State) (port : Port) (p : Packet) (rest : List Event) (i : Instr), s.pending = .packet port p :: rest →
    decode p = .ok i → i.port ≠ port →
    step s = .next (State.respond { s with pending := rest } port .wrongPort 0)

/-- Ignored fields: PL in formats N and B and PL[63:32] in format S change nothing of what a packet does (R121). -/
def Obligations.IgnoredPayloadBits : Prop :=
  ∀ (s : State) (port : Port) (cw : BitVec 32) (pl pl' : BitVec 64),
    (cw.extractLsb' 28 4 ∈ [0x1#4, 0x3#4, 0x4#4, 0x6#4] ∨
      cw.extractLsb' 28 4 = 0x5#4 ∧ pl.extractLsb' 0 32 = pl'.extractLsb' 0 32) →
    State.receive s port ⟨cw, pl⟩ = State.receive s port ⟨cw, pl'⟩

/-- A byte-wide transport: a packet is twelve bytes, CW's four then PL's eight, least significant first, from which the packet is read
back; a BLK word is four bytes in the same order (20_memory.md R85). -/
def Obligations.PacketTransport : Prop :=
  (∀ p : Packet, Packet.ofBytes? p.toBytes = some p ∧
    p.toBytes =
      [p.cw.extractLsb' 0 8, p.cw.extractLsb' 8 8, p.cw.extractLsb' 16 8, p.cw.extractLsb' 24 8,
       p.pl.extractLsb' 0 8, p.pl.extractLsb' 8 8, p.pl.extractLsb' 16 8, p.pl.extractLsb' 24 8,
       p.pl.extractLsb' 32 8, p.pl.extractLsb' 40 8, p.pl.extractLsb' 48 8, p.pl.extractLsb' 56 8]) ∧
  ∀ v : F32, wordOfBytes (bytesOfWord 4 v) = v.toNat ∧
    bytesOfWord 4 v = [v.extractLsb' 0 8, v.extractLsb' 8 8, v.extractLsb' 16 8, v.extractLsb' 24 8]

/-- A step runs the decoded command: when the next event is a packet of a command on the port that accepts it, the step is that
command's transition, with the event taken from the agents' sequence (R124; the sequence is the model's, log 1). -/
def Obligations.StepRunsDecodedCommand : Prop :=
  ∀ (s : State) (p : Packet) (rest : List Event) (i : Instr), decode p = .ok i →
    s.pending = .packet i.port p :: rest → step s = exec i { s with pending := rest }

/-- An assembled command is one packet that decodes to the command, on its own port where no prefix or its own port's stands; an integer
operand that does not fit its field is refused (R127). That the other agent's prefix names the packet's port is the model's choice
(log 27). -/
def Obligations.AssembledCommandDecodes : Prop :=
  ∀ (port : Option Port) (i : Instr),
    (i.wellFormed = true → ∃ p, Assembler.commandEvent port i = .ok [.packet (port.getD i.port) p] ∧ decode p = .ok i) ∧
    (i.wellFormed = false → Assembler.commandEvent port i = .error .outOfField)

/-! ## Host actions and idling (20_memory.md R83, 60_exceptions.md R294) -/

/-- HostWrite writes one word of BLK and nothing else; HostRead gives the host the word BLK holds and changes nothing else, and does
so for a word that nothing has written too, whose value is free but the same at every read; outside the bounds the host is stuck
(20_memory.md R83, R87; `hostData`, the free value and the fault are the model's, logs 8 and 14). -/
def Obligations.HostActions : Prop :=
  ∀ (s : State) (c n : Nat) (rest : List Event),
    (∀ v, s.pending = .hostWrite c n v :: rest → c < Config.chMax → n < Config.blockCap →
      ∃ t, step s = .next t ∧ t = { s with pending := rest, blk := t.blk } ∧ t.blkWord? c n = some v ∧
        ∀ c' n', (c', n') ≠ (c, n) → t.blkWord? c' n' = s.blkWord? c' n') ∧
    (s.pending = .hostRead c n :: rest → c < Config.chMax → n < Config.blockCap →
      (∀ v, s.blkWord? c n = some v → step s = .next { s with pending := rest, hostData := v }) ∧
      (s.blkWord? c n = none → step s = .next { s with pending := rest, hostData := Config.blkUnwritten c n })) ∧
    (∀ v, (s.pending = .hostWrite c n v :: rest ∨ s.pending = .hostRead c n :: rest) →
      (Config.chMax ≤ c ∨ Config.blockCap ≤ n) → step s = .fault (.hostStuck c n))

/-- With no event left the block is idle and holds all state (R294; that the model steps at all then is its choice, log 3). -/
def Obligations.IdleHoldsState : Prop :=
  ∀ s : State, s.pending = [] → step s = .next s

/-! ## The parameter store (40_parameter_store.md) -/

/-- SET_PARAM with a value that is not NaN: the clamped value is stored, DIRTY is set, the status is OK or PARAM_CLAMPED, the data is
0, and nothing else changes (R142). -/
def Obligations.SetParamStoresClampedValue : Prop :=
  ∀ (v : F32) (s : State), F32.isNaN v = false →
    exec (.setParam .rate v) s = .next { s with
      rateReg := clamp v Config.rateMin Config.rateMax, dirty := true,
      cStatus := if isClamped v Config.rateMin Config.rateMax then 0x02#8 else 0x00#8, cRdata := 0 } ∧
    exec (.setParam .depth v) s = .next { s with
      depthReg := clamp v Config.depthMin Config.depthMax, dirty := true,
      cStatus := if isClamped v Config.depthMin Config.depthMax then 0x02#8 else 0x00#8, cRdata := 0 }

/-- SET_PARAM with a NaN: PARAM_NAN (0x14), and nothing is stored (R142, R281). -/
def Obligations.SetParamRefusesNaN : Prop :=
  ∀ (pid : ParamId) (v : F32) (s : State), F32.isNaN v = true →
    exec (.setParam pid v) s = .next { s with cStatus := 0x14#8, cRdata := 0 }

/-- CLAMP for a value that is not NaN and bounds lo ≤ hi: lo below, hi above, the value itself in between, and never outside; the
bounds of the two parameters; both zeros, every negative value and −infinity clamp to lo, +infinity to hi (R141). -/
def Obligations.ClampFollowsBounds : Prop :=
  (∀ v lo hi : F32, F32.isNaN v = false → F32.le lo hi = true →
    (F32.lt v lo = true → clamp v lo hi = lo ∧ isClamped v lo hi = true) ∧
    (F32.lt hi v = true → clamp v lo hi = hi ∧ isClamped v lo hi = true) ∧
    (F32.within lo hi v = true → clamp v lo hi = v ∧ isClamped v lo hi = false) ∧
    F32.within lo hi (clamp v lo hi) = true) ∧
  (paramLo .rate = 0x3F800000#32 ∧ paramHi .rate = 0x41400000#32 ∧ paramLo .depth = 0x3C23D70A#32 ∧
    paramHi .depth = 0x3D4CCCCD#32) ∧
  ∀ (pid : ParamId) (v : F32), F32.isNaN v = false →
    clampParam pid v = clamp v (paramLo pid) (paramHi pid) ∧
    (v.msb = true → clampParam pid v = paramLo pid) ∧
    (v = 0x00000000#32 → clampParam pid v = paramLo pid) ∧
    (v = 0x7F800000#32 → clampParam pid v = paramHi pid)

/-- READ_PARAMS returns the store, DEPTH_REG above RATE_REG, with status OK, and changes nothing else (R146). -/
def Obligations.ReadParamsReturnsStore : Prop :=
  ∀ s : State, ∃ d, exec .readParams s = .next { s with cStatus := 0x00#8, cRdata := d } ∧
    d.extractLsb' 0 32 = s.rateReg ∧ d.extractLsb' 32 32 = s.depthReg

/-- LOAD_PARAMS of two numbers: both are clamped and stored together, DIRTY is set, the status says whether either was clamped, and
nothing else changes (R147). -/
def Obligations.LoadParamsStoresBoth : Prop :=
  ∀ (r d : F32) (s : State), F32.isNaN r = false → F32.isNaN d = false →
    exec (.loadParams true r d) s = .next { s with
      rateReg := clamp r Config.rateMin Config.rateMax, depthReg := clamp d Config.depthMin Config.depthMax, dirty := true,
      cStatus := if isClamped r Config.rateMin Config.rateMax || isClamped d Config.depthMin Config.depthMax
        then 0x02#8 else 0x00#8,
      cRdata := 0 }

/-- LOAD_PARAMS of a malformed blob or of a NaN: DESERIALIZE_FAILURE (0x04), and nothing is stored (R147, R281). -/
def Obligations.LoadParamsRefusesMalformed : Prop :=
  ∀ (ok : Bool) (r d : F32) (s : State), (ok = false ∨ F32.isNaN r = true ∨ F32.isNaN d = true) →
    exec (.loadParams ok r d) s = .next { s with cStatus := 0x04#8, cRdata := 0 }

/-- The snapshot changes only as a whole: after any step, of whatever event, FREQ and WIDTH are both what they were, or both the
store's values, or both the defaults; and only a PREPARE, a PROCESS_BLOCK (the store's values) or an INIT (the defaults) on its own
port changes them (R39, R94, R145). -/
def Obligations.SnapshotNeverTorn : Prop :=
  ∀ s t : State, step s = .next t →
    (t.freq = s.freq ∧ t.width = s.width) ∨
    ∃ p rest i, s.pending = .packet .host p :: rest ∧ decode p = .ok i ∧
      ((t.freq = s.rateReg ∧ t.width = s.depthReg ∧ t.dirty = false ∧
          ((∃ m r, i = .prepare m r) ∨ ∃ a b c, i = .processBlock a b c)) ∨
        (i = .init ∧ t.freq = Config.rateDef ∧ t.width = Config.depthDef))

/-- A parameter write is used by the first block ordered after it, whatever comes between. An accepted SET_PARAM or LOAD_PARAMS sets
DIRTY; a step that starts with DIRTY set leaves it set, or copies the store into the snapshot, or is an INIT; a block that starts with
DIRTY set is the block that starts from the refreshed state, so that every sample uses the written values; and when it runs it leaves
the whole store, unchanged, in the snapshot, and DIRTY clear (R150, R314; 20_memory.md R93, R95; 43_engine.md R225). -/
def Obligations.ParameterReachesNextBlock : Prop :=
  (∀ (pid : ParamId) (v : F32) (s u : State), F32.isNaN v = false → exec (.setParam pid v) s = .next u → u.dirty = true) ∧
  (∀ (r d : F32) (s u : State), F32.isNaN r = false → F32.isNaN d = false → exec (.loadParams true r d) s = .next u →
    u.dirty = true) ∧
  (∀ s t : State, step s = .next t → s.dirty = true →
    t.dirty = true ∨
    (t.freq = s.rateReg ∧ t.width = s.depthReg ∧ t.rateReg = s.rateReg ∧ t.depthReg = s.depthReg) ∨
    ∃ p rest, s.pending = .packet .host p :: rest ∧ decode p = .ok .init) ∧
  (∀ (nin nout nsamp : Nat) (s : State), s.dirty = true → s.lc = lcActive → outOfBounds nin nout nsamp = false →
    exec (.processBlock nin nout nsamp) s = exec (.processBlock nin nout nsamp) s.refresh) ∧
  (∀ (nin nout nsamp : Nat) (s t : State), s.dirty = true → s.lc = lcActive → outOfBounds nin nout nsamp = false →
    exec (.processBlock nin nout nsamp) s = .next t →
    t.freq = s.rateReg ∧ t.width = s.depthReg ∧ t.rateReg = s.rateReg ∧ t.depthReg = s.depthReg ∧ t.dirty = false)

/-- A store value that no REFRESH takes does not reach the audio path: with DIRTY clear, a block computes the same from any store
(20_memory.md R93). -/
def Obligations.CleanStoreIsInvisible : Prop :=
  ∀ (nin nout nsamp : Nat) (r d : F32) (s t : State), s.dirty = false →
    exec (.processBlock nin nout nsamp) s = .next t →
    exec (.processBlock nin nout nsamp) { s with rateReg := r, depthReg := d } = .next { t with rateReg := r, depthReg := d }

/-- A CTRL command commutes with the rest of a block after its entry REFRESH: done before it or after it, the state is the same
(20_memory.md R92). -/
def Obligations.CtrlCommutesWithBlock : Prop :=
  ∀ (i : Instr) (nin nout nsamp : Nat) (s t u : State), i.port = .ctrl →
    hardware.blockBody nin nout nsamp s = .ok t → exec i s = .next u →
    ∃ v, exec i t = .next v ∧ hardware.blockBody nin nout nsamp u = .ok v

/-- CTRL commands write nothing but the store, DIRTY and the CTRL response registers (20_memory.md R92). -/
def Obligations.CtrlCommandFrame : Prop :=
  ∀ (i : Instr) (s t : State), i.port = .ctrl → exec i s = .next t →
    t = { s with rateReg := t.rateReg, depthReg := t.depthReg, dirty := t.dirty, cStatus := t.cStatus, cRdata := t.cRdata }

/-! ## Lifecycle (44_lifecycle.md) -/

/-- INIT writes every default, OK and data 0 on the HOST port, and nothing else (R251). -/
def Obligations.InitSetsDefaults : Prop :=
  ∀ s : State, exec .init s = .next { s with
    rateReg := 0x40C00000#32, depthReg := 0x3C23D70A#32, dirty := false, freq := 0x40C00000#32, width := 0x3C23D70A#32,
    phase := 0x00000000#32, widx := 0, lReg := 1, sr := 0x0000000000000000#64, invSr := 0x0000000000000000#64, maxblk := 0,
    lc := 0#2, hStatus := 0x00#8, hRdata := 0 }

/-- Power-on reset performs exactly INIT's register writes, and zeroes the response registers (70_reset_and_hazards.md R310). -/
def Obligations.PowerOnIsInit : Prop :=
  (∀ s t : State, exec .init s = .next t →
    t = { State.reset with cStatus := s.cStatus, cRdata := s.cRdata, buf := s.buf, blk := s.blk, pending := s.pending,
                           hostData := s.hostData, draws := s.draws }) ∧
  State.reset.hStatus = 0x00#8 ∧ State.reset.cStatus = 0x00#8 ∧ State.reset.hRdata = 0 ∧ State.reset.cRdata = 0

/-- PREPARE of an accepted rate: the rate registers, the length Lsize(sr), phase and write index zero, the snapshot refreshed, ACTIVE,
OK; every live word of BUF is +0.0, every other word and register is unchanged (R252). -/
def Obligations.PrepareSizesAndClears : Prop :=
  ∀ (m : Nat) (r : F64) (s : State), badSampleRate r = false →
    ∃ t, exec (.prepare m r) s = .next t ∧
      t = { s with
        sr := r, invSr := rnd64 (F64.val r).recip, lReg := lsize r, maxblk := m, phase := 0x00000000#32, widx := 0, lc := 2#2,
        freq := s.rateReg, width := s.depthReg, dirty := false, hStatus := 0x00#8, hRdata := 0, buf := t.buf } ∧
      ∀ c < Config.chMax, ∀ i, t.bufWord? c i = if i < lsize r then some 0x00000000#32 else s.bufWord? c i

/-- PREPARE refuses a NaN and every rate outside 1000 … 192000 Hz with BAD_SAMPLE_RATE (0x12) and no state change, and accepts every
other rate, with which the length fits the delay RAM and every phase increment is below 1 (R253). -/
def Obligations.PrepareChecksRate : Prop :=
  (∀ r : F64, badSampleRate r = false ↔
    F64.isNaN r = false ∧ F64.le 0x408F400000000000#64 r = true ∧ F64.le r 0x4107700000000000#64 = true) ∧
  (∀ (m : Nat) (r : F64) (s : State), badSampleRate r = true →
    exec (.prepare m r) s = .next { s with hStatus := 0x12#8, hRdata := 0 }) ∧
  ∀ (m : Nat) (r : F64) (s : State), badSampleRate r = false →
    ∃ t, exec (.prepare m r) s = .next t ∧ t.hStatus = 0x00#8 ∧ t.sr = r ∧ t.lReg ≤ Config.bufCap ∧
      ∀ (u : Nat) (freq : F32), F32.within Config.rateMin Config.rateMax freq = true →
        F32.lt (phaseDelta u freq t.invSr) 0x3F800000#32 = true

/-- PREPARE, then any change of the store, then PREPARE with the same rate: the same state as one PREPARE leaves, except that the
second REFRESH copies the store, and the second block-size hint stands (R256). -/
def Obligations.PrepareTwiceIsOnce : Prop :=
  ∀ (m m' : Nat) (r : F64) (s t : State), badSampleRate r = false → exec (.prepare m r) s = .next t →
    ∀ (a d : F32) (dirty : Bool),
      exec (.prepare m' r) { t with rateReg := a, depthReg := d, dirty := dirty } =
        .next { t with rateReg := a, depthReg := d, freq := a, width := d, dirty := false, maxblk := m' }

/-- RESET writes +0.0 to the live words of every channel and OK and 0 to the HOST response registers; no other word of memory and no
other register changes (R254; 42_delay_line.md R201). The hypothesis is the invariant's, L_REG ≤ BUF_CAP (10_state.md R42). -/
def Obligations.ResetClearsContentOnly : Prop :=
  ∀ s : State, s.lReg ≤ Config.bufCap →
    ∃ t, exec .reset s = .next t ∧ t = { s with hStatus := 0x00#8, hRdata := 0, buf := t.buf } ∧
      ∀ c < Config.chMax, ∀ i, t.bufWord? c i = if i < s.lReg then some 0x00000000#32 else s.bufWord? c i

/-- RESET twice is RESET once, BUF as data included (R255). -/
def Obligations.ResetIsIdempotent : Prop :=
  ∀ s t : State, exec .reset s = .next t → exec .reset t = .next t

/-- The lifecycle table: INIT leads to UNINIT, an accepted PREPARE to ACTIVE, everything else leaves LC alone (R250). -/
def Obligations.LifecycleTransitions : Prop :=
  ∀ (i : Instr) (s t : State), exec i s = .next t →
    match i with
    | .init => t.lc = lcUninit
    | .prepare _ r => t.lc = if badSampleRate r then s.lc else lcActive
    | .processBlock _ _ _ => t.lc = s.lc
    | .reset => t.lc = s.lc
    | .setParam _ _ => t.lc = s.lc
    | .readParams => t.lc = s.lc
    | .loadParams _ _ _ => t.lc = s.lc

/-! ## Oscillator (41_oscillator.md) -/

/-- LFO_FN has the properties of R171 at every phase: range, quarter points, accuracy. -/
def Obligations.LfoHasItsProperties : Prop :=
  ∀ p : F32, Config.LfoAllowed p (lfoFn p)

/-- delta lies between its values at the two extreme operands, for every frequency and accepted rate; and those are its values
(R174). -/
def Obligations.PhaseIncrementBounds : Prop :=
  (∀ (t : Nat) (freq : F32) (r : F64), F32.within Config.rateMin Config.rateMax freq = true → badSampleRate r = false →
    F32.within 0x36AEC33E#32 0x3C449BA6#32 (phaseDelta t freq (rnd64 (F64.val r).recip)) = true) ∧
  (∀ t, phaseDelta t 0x3F800000#32 (rnd64 (F64.val 0x4107700000000000#64).recip) = 0x36AEC33E#32) ∧
  (∀ t, phaseDelta t 0x41400000#32 (rnd64 (F64.val 0x408F400000000000#64).recip) = 0x3C449BA6#32)

/-- PHASE_ADV keeps 0 ≤ p < 1 (R175). -/
def Obligations.PhaseAdvKeepsRange : Prop :=
  ∀ (t : Nat) (freq : F32) (r : F64) (p : F32), F32.within Config.rateMin Config.rateMax freq = true →
    badSampleRate r = false → F32.inUnit p = true → F32.inUnit (phaseAdv t freq (rnd64 (F64.val r).recip) p) = true

/-- Under NUMERICS = Real the waveform is unipolar with its exact quarter points (R170). -/
def Obligations.RealWaveformIsUnipolar : Prop :=
  (∀ p : ℝ, 0 ≤ RealReading.lfo p ∧ RealReading.lfo p ≤ 1) ∧ RealReading.lfo 0 = 1 / 2 ∧ RealReading.lfo (1 / 4) = 1 ∧
    RealReading.lfo (1 / 2) = 1 / 2 ∧ RealReading.lfo (3 / 4) = 0

/-- Under NUMERICS = Real, when sampleRate/frequency is an integer N, N PHASE_ADV steps return the phase to its start exactly
(R176). -/
def Obligations.RealPhaseIsPeriodic : Prop :=
  ∀ (freq sr p : ℝ) (n : ℕ), 0 < freq → 0 < n → sr = n * freq → 0 ≤ p → p < 1 →
    (RealReading.phaseAdv freq (1 / sr))^[n] p = p

/-! ## Delay line (42_delay_line.md) -/

/-- Lsize: its formula, its listed values, its growth with the rate, and its range over the accepted rates (R193). -/
def Obligations.DelayLineSizing : Prop :=
  (∀ r : F64, lsize r = (rnd64 ((F32.val 0x3D4CCCCD#32).mul (F64.val r))).val.ceilNat + 4) ∧
  lsize 0x408F400000000000#64 = 55 ∧ lsize 0x40BF400000000000#64 = 405 ∧ lsize 0x40D5888000000000#64 = 1107 ∧
  lsize 0x40E5888000000000#64 = 2210 ∧ lsize 0x40E7700000000000#64 = 2405 ∧ lsize 0x40F7700000000000#64 = 4805 ∧
  lsize 0x4107700000000000#64 = 9605 ∧ Config.bufCap = 9605 ∧
  (∀ r r' : F64, badSampleRate r = false → badSampleRate r' = false → F64.le r r' = true → lsize r ≤ lsize r') ∧
  (∀ r : F64, badSampleRate r = false → 55 ≤ lsize r ∧ lsize r ≤ Config.bufCap)

/-- No overtake: for every width, modulation value, accepted rate and write index, the numerator is positive, the read index i0 lies
3 to L − 1 samples behind the write index, and i1 one sample less (R194). -/
def Obligations.ReadNeverOvertakesWrite : Prop :=
  ∀ (t w : Nat) (width m : F32) (r : F64), F32.within Config.depthMin Config.depthMax width = true →
    F32.within 0x00000000#32 0x3F800000#32 m = true → badSampleRate r = false → w < lsize r →
    F64.lt 0x0000000000000000#64 (readNumerator w (lsize r) (readOffset (currentDelay t width m) r)) = true ∧
    ∃ i0, (readPosition w (lsize r) (readOffset (currentDelay t width m) r)).floorNat? = some i0 ∧ i0 < lsize r ∧
      3 ≤ (w + lsize r - i0) % lsize r ∧
      (w + lsize r - (i0 + 1) % lsize r) % lsize r + 1 = (w + lsize r - i0) % lsize r

/-- With m = 0 the read is exactly 3 samples back: DL_READ answers the word there, when it and the word after it are written, are
finite, and the word is not −0.0 (R195; −0.0, non-finite and unwritten words are left out). -/
def Obligations.ZeroModulationReadsThreeBack : Prop :=
  ∀ (t c w len : Nat) (width x x' : F32) (r : F64) (b : Bank), F32.within Config.depthMin Config.depthMax width = true →
    badSampleRate r = false → len = lsize r → w < len →
    b.read? ((w + len - 3) % len) = some x → b.read? ((w + len - 2) % len) = some x' →
    F32.mag x < 0x7F800000 → F32.mag x' < 0x7F800000 → x ≠ 0x80000000#32 →
    hardware.dlRead t c width r len b w 0x00000000#32 = .ok x

/-- DL_WRITE stores the sample bit-exactly at the write index, leaves every other word alone, and the index advances modulo the length
(R197; the bound on the index is the invariant's, 10_state.md R41, R42). -/
def Obligations.DelayWriteStoresSample : Prop :=
  ∀ (len w : Nat) (b : Bank) (x : F32), w < len → len ≤ Config.bufCap →
    (∃ b', hardware.dlWrite len b w x = .ok b' ∧ b'.read? w = some x ∧ ∀ i, i ≠ w → b'.read? i = b.read? i) ∧
    nextIndex len w = (w + 1) % len

/-- Under NUMERICS = Real the read position is (w − off − 3) mod L exactly (R192). -/
def Obligations.RealReadPosition : Prop :=
  ∀ (w len : ℕ) (off : ℝ), 0 < len →
    RealReading.readPosition w len off = (len : ℝ) * Int.fract (((w : ℝ) - off - 3) / (len : ℝ))

/-- Under NUMERICS = Real a DL_READ completes, and answers a value between the two words it reads: i0 is the floor of the read position
(R192, R195), and it reads the words i0 and i0 + 1 modulo the length (R196). -/
def Obligations.RealReadIsBetweenTaps : Prop :=
  ∀ (t c w len : ℕ) (width : F32) (sr : F64) (m x0 x1 : ℝ) (b : Bank ℝ) (i0 : ℕ), 0 < len → len ≤ Config.bufCap →
    i0 = ⌊RealReading.readPosition w len (RealReading.readOffset (RealReading.const width) m (RealReading.rate sr))⌋₊ →
    b.read? i0 = some x0 → b.read? ((i0 + 1) % len) = some x1 →
    i0 < len ∧ ∃ y, (real Config.params).dlRead t c width sr len b w m = .ok y ∧ min x0 x1 ≤ y ∧ y ≤ max x0 x1

/-- The output is finite and bounded (43_engine.md R230). The weight of DL_READ lies in [0, 1]; for a weight there and two finite
samples of magnitude at most A ≤ 2^127 the interpolator's output is finite and at most A·(1 + 2^(−22)) + 2^(−148) in magnitude; so is
every output of a block on a channel whose inputs and live delay line are such, and under NUMERICS = Real it is at most A. Two samples
3·2^(−149) at weight 0.5 give 4·2^(−149). -/
def Obligations.InterpolatorIsBounded : Prop :=
  (∀ (t w len i0 : Nat) (off : F64), (readPosition w len off).floorNat? = some i0 →
    F32.within 0x00000000#32 0x3F800000#32 (readFraction t (readPosition w len off) i0) = true) ∧
  (∀ (t : Nat) (fr b0 b1 : F32) (a : ℚ), F32.within 0x00000000#32 0x3F800000#32 fr = true →
    F32.mag b0 < 0x7F800000 → F32.mag b1 < 0x7F800000 → |F32.toRat b0| ≤ a → |F32.toRat b1| ≤ a → a ≤ 2 ^ 127 →
    F32.mag (interpolate t fr b0 b1) < 0x7F800000 ∧
    |F32.toRat (interpolate t fr b0 b1)| ≤ a * (1 + 1 / 2 ^ 22) + 1 / 2 ^ 148) ∧
  (∀ t : Nat, interpolate t 0x3F000000#32 0x00000003#32 0x00000003#32 = 0x00000004#32) ∧
  (∀ (nin nout nsamp c : Nat) (s t : State) (a : ℚ), s.lc ≠ lcUninit → outOfBounds nin nout nsamp = false →
    exec (.processBlock nin nout nsamp) s = .next t → c < nin → a ≤ 2 ^ 127 →
    (∀ i < s.lReg, ∃ x, s.bufWord? c i = some x ∧ F32.mag x < 0x7F800000 ∧ |F32.toRat x| ≤ a) →
    (∀ n < nsamp, ∃ x, s.blkWord? c n = some x ∧ F32.mag x < 0x7F800000 ∧ |F32.toRat x| ≤ a) →
    ∀ n < nsamp, ∃ y, t.blkWord? c n = some y ∧ F32.mag y < 0x7F800000 ∧
      |F32.toRat y| ≤ a * (1 + 1 / 2 ^ 22) + 1 / 2 ^ 148) ∧
  ∀ (nin nout nsamp c : Nat) (s t : State ℝ ℝ) (a : ℝ), s.lc ≠ lcUninit → outOfBounds nin nout nsamp = false →
    (real Config.params).exec (.processBlock nin nout nsamp) s = .next t → c < nin →
    (∀ i < s.lReg, ∃ x, s.bufWord? c i = some x ∧ |x| ≤ a) → (∀ n < nsamp, ∃ x, s.blkWord? c n = some x ∧ |x| ≤ a) →
    ∀ n < nsamp, ∃ y, t.blkWord? c n = some y ∧ |y| ≤ a

/-! ## Engine (43_engine.md) -/

/-- Before PREPARE a block is passed through: NOT_PREPARED (0x01) whatever its operands, and nothing else changes (R226). -/
def Obligations.NotPreparedPassesThrough : Prop :=
  ∀ (nin nout nsamp : Nat) (s : State), s.lc = 0#2 →
    exec (.processBlock nin nout nsamp) s = .next { s with hStatus := 0x01#8, hRdata := 0 }

/-- A count above its capacity raises BOUNDS (0x13) after the not-prepared guard, and nothing else changes (R227; LC = 3 is excluded as
93_implementation_defined.md I14 has it). -/
def Obligations.OverCapacityIsRefused : Prop :=
  ∀ (nin nout nsamp : Nat) (s : State), s.lc ≠ 0#2 → s.lc ≠ 3#2 → (2 < nin ∨ 2 < nout ∨ 65536 < nsamp) →
    exec (.processBlock nin nout nsamp) s = .next { s with hStatus := 0x13#8, hRdata := 0 }

/-- PROCESS_BLOCK runs: in every sound ACTIVE state, within the capacities and with its inputs written, it answers a next state with
status OK that is again sound, and DIRTY is clear (R220, R225). -/
def Obligations.ProcessBlockCompletes : Prop :=
  ∀ (nin nout nsamp : Nat) (s : State), s.Inv → s.lc = lcActive → outOfBounds nin nout nsamp = false →
    s.inputsWritten nin nsamp →
    ∃ t, exec (.processBlock nin nout nsamp) s = .next t ∧ t.hStatus = 0x00#8 ∧ t.hRdata = 0 ∧ t.dirty = false ∧ t.Inv

/-- The samples of a block, written out (R221, R222). A block of one sample on one channel: the input is stored in the delay line, the
output y of DL_READ at the modulation of the entry phase replaces it, the write index and the phase advance once; nothing else changes
(DIRTY clear, so no entry REFRESH). A block of any size: the output of every sample n of every processed channel c is that of DL_READ
with the WIDTH of the entry REFRESH, on BUF[c] after the inputs before n, at the write index n places on, at the modulation of the
phase n PHASE_ADV steps on (`draws` numbers the sample periods for the free values and is the model's own, log 17). -/
def Obligations.OneSampleBlock : Prop :=
  (∀ (s : State) (x : F32), s.Inv → s.lc = lcActive → s.dirty = false → s.blkWord? 0 0 = some x →
    ∃ y t, hardware.dlRead s.draws 0 s.width s.sr s.lReg s.buf[0] s.widx (lfoFn s.phase) = .ok y ∧
      exec (.processBlock 1 1 1) s = .next t ∧
      t = { s with buf := t.buf, blk := t.blk, phase := phaseAdv s.draws s.freq s.invSr s.phase,
                   widx := (s.widx + 1) % s.lReg, draws := s.draws + 1, hStatus := 0x00#8, hRdata := 0 } ∧
      (∀ c i, t.bufWord? c i = if c = 0 ∧ i = s.widx then some x else s.bufWord? c i) ∧
      (∀ c n, t.blkWord? c n = if c = 0 ∧ n = 0 then some y else s.blkWord? c n)) ∧
  ∀ (nin nout nsamp c n : Nat) (s t : State), s.lc ≠ lcUninit → outOfBounds nin nout nsamp = false → s.widx < s.lReg →
    exec (.processBlock nin nout nsamp) s = .next t → c < nin → n < nsamp →
    ∃ y, t.blkWord? c n = some y ∧
      hardware.dlRead (s.draws + n) c (if s.dirty then s.depthReg else s.width) s.sr s.lReg (s.lineBefore c n)
        ((s.widx + n) % s.lReg)
        (lfoFn (phaseAfter (if s.dirty then s.rateReg else s.freq) s.invSr n s.draws s.phase)) = .ok y

/-- A block reads its inputs in the order of the pseudocode, channel by channel, and stops with UNWRITTEN_INPUT at the first word that
nothing has written (20_memory.md R100, 43_engine.md R220; that the first is the one named is log 11). No word of BLK holds a value
at power-on (the model's form of the unspecified content, log 5). -/
def Obligations.UnwrittenInputFaults : Prop :=
  (∀ c n, State.reset.blkWord? c n = none) ∧
  ∀ (nin nout nsamp c n : Nat) (s : State), s.Inv → s.lc = lcActive → outOfBounds nin nout nsamp = false →
    c < nin → n < nsamp → s.blkWord? c n = none →
    (∀ c' n', c' < nin → n' < nsamp → (c' < c ∨ c' = c ∧ n' < n) → (s.blkWord? c' n').isSome = true) →
    exec (.processBlock nin nout nsamp) s = .fault (.unwrittenInput c n)

/-- What a block clears and what it leaves unchanged. Output channels NIN … NOUT−1 are +0.0 over NSAMP words when the block runs.
Unchanged: the store, the rate registers, L_REG, MAXBLK, LC and the CTRL response registers; of BLK, every word at an index ≥ NSAMP
and every channel ≥ max(NIN, NOUT); of BUF, every channel ≥ NIN and every word at an index ≥ L_REG (R220, R223; 10_state.md R49).
`draws` is the model's own (log 17). -/
def Obligations.ProcessBlockFrame : Prop :=
  ∀ (nin nout nsamp : Nat) (s t : State), exec (.processBlock nin nout nsamp) s = .next t →
    t = { s with dirty := t.dirty, freq := t.freq, width := t.width, phase := t.phase, widx := t.widx, hStatus := t.hStatus,
                 hRdata := t.hRdata, buf := t.buf, blk := t.blk, draws := t.draws } ∧
    (s.lc ≠ lcUninit → outOfBounds nin nout nsamp = false → ∀ c n, nin ≤ c → c < nout → n < nsamp →
      t.blkWord? c n = some 0x00000000#32) ∧
    (∀ c n, (nsamp ≤ n ∨ max nin nout ≤ c) → t.blkWord? c n = s.blkWord? c n) ∧
    (∀ c i, (nin ≤ c ∨ s.lReg ≤ i) → t.bufWord? c i = s.bufWord? c i)

/-- All channels end at one phase and one write index, NSAMP steps after the start; a block on no channel leaves both (R222,
R224(b)). `phaseAfter` numbers the sample periods by the model's own `draws`, which only free values read (log 17). -/
def Obligations.PhaseAndIndexAdvanceOnce : Prop :=
  ∀ (nin nout nsamp : Nat) (s t : State), s.lc ≠ lcUninit → outOfBounds nin nout nsamp = false → s.widx < s.lReg →
    exec (.processBlock nin nout nsamp) s = .next t →
    (nin = 0 → t.widx = s.widx ∧ t.phase = s.phase) ∧
    (0 < nin → t.widx = (s.widx + nsamp) % s.lReg ∧
      t.phase = phaseAfter (if s.dirty then s.rateReg else s.freq) s.invSr nsamp s.draws s.phase)

/-- A block of no samples is still a block boundary: REFRESH runs if DIRTY, and nothing else changes but the response (R224(a)). -/
def Obligations.EmptyBlockOnlyRefreshes : Prop :=
  ∀ (nin nout : Nat) (s : State), s.lc = lcActive → outOfBounds nin nout 0 = false →
    exec (.processBlock nin nout 0) s = .next { s with
      freq := if s.dirty then s.rateReg else s.freq, width := if s.dirty then s.depthReg else s.width, dirty := false,
      hStatus := 0x00#8, hRdata := 0 }

/-- The delay line records the input: of the samples of a block, the last L_REG of each processed channel stand bit-exactly in BUF at
(WIDX + j) mod L_REG, and a word that no sample was written to keeps its value (42_delay_line.md R197, R199). -/
def Obligations.DelayLineRecordsInput : Prop :=
  ∀ (nin nout nsamp c : Nat) (s t : State), s.lc ≠ lcUninit → outOfBounds nin nout nsamp = false → s.widx < s.lReg →
    exec (.processBlock nin nout nsamp) s = .next t → c < nin →
    (∀ j < nsamp, nsamp ≤ j + s.lReg → t.bufWord? c ((s.widx + j) % s.lReg) = s.blkWord? c j) ∧
    (∀ i, (∀ j < nsamp, (s.widx + j) % s.lReg ≠ i) → t.bufWord? c i = s.bufWord? c i)

/-- Silence in, silence out: a channel whose delay line and inputs are all +0.0 gives +0.0 outputs and keeps its delay line all +0.0,
whatever FREQ, WIDTH and PHASE are (R229). -/
def Obligations.SilenceInSilenceOut : Prop :=
  ∀ (nin nout nsamp c : Nat) (s t : State), s.lc ≠ lcUninit → outOfBounds nin nout nsamp = false →
    exec (.processBlock nin nout nsamp) s = .next t → c < nin →
    (∀ i < s.lReg, s.bufWord? c i = some 0x00000000#32) → (∀ n < nsamp, s.blkWord? c n = some 0x00000000#32) →
    (∀ n < nsamp, t.blkWord? c n = some 0x00000000#32) ∧ (∀ i < s.lReg, t.bufWord? c i = some 0x00000000#32)

/-- Two processed channels with identical inputs and identical live delay lines produce identical outputs (R224(d)); that this
includes the bits of produced NaNs is the model's reading (log 6). -/
def Obligations.IdenticalChannelsAgree : Prop :=
  ∀ (nin nout nsamp c c' : Nat) (s t : State), s.lc ≠ lcUninit → outOfBounds nin nout nsamp = false →
    exec (.processBlock nin nout nsamp) s = .next t → c < nin → c' < nin →
    (∀ i < s.lReg, (s.bufWord? c i).isSome = true ∧ s.bufWord? c i = s.bufWord? c' i) →
    (∀ n < nsamp, s.blkWord? c n = s.blkWord? c' n) →
    ∀ n < nsamp, t.blkWord? c n = t.blkWord? c' n

/-- MAXBLK is a hint that no rule reads: a block does the same for every value of it (10_state.md R45). -/
def Obligations.BlockSizeHintIsUnread : Prop :=
  ∀ (i : Instr) (m : Nat) (s t : State), (∀ m' r, i ≠ .prepare m' r) → i ≠ .init → exec i s = .next t →
    exec i { s with maxblk := m } = .next { t with maxblk := m }

/-! ## Errors and the whole machine (60_exceptions.md) -/

/-- Responses: a packet writes a status code and data on its own port only; the data is 0 but for a READ_PARAMS (10_state.md R48). -/
def Obligations.ResponseGoesToOwnPort : Prop :=
  ∀ (s t : State) (p : Packet),
    (State.receive s .host p = .next t →
      (∃ st : Status, t.hStatus = st.code) ∧ t.hRdata = 0 ∧ t.cStatus = s.cStatus ∧ t.cRdata = s.cRdata) ∧
    (State.receive s .ctrl p = .next t →
      (∃ st : Status, t.cStatus = st.code) ∧ (decode p ≠ .ok .readParams → t.cRdata = 0) ∧
      t.hStatus = s.hStatus ∧ t.hRdata = s.hRdata)

/-- Precision: a packet whose status is neither OK nor PARAM_CLAMPED leaves everything but its port's response registers as it was
(R284). -/
def Obligations.ErrorsArePrecise : Prop :=
  ∀ (s t : State) (p : Packet),
    (State.receive s .host p = .next t → t.hStatus ≠ 0x00#8 → t.hStatus ≠ 0x02#8 →
      t = { s with hStatus := t.hStatus, hRdata := t.hRdata }) ∧
    (State.receive s .ctrl p = .next t → t.cStatus ≠ 0x00#8 → t.cStatus ≠ 0x02#8 →
      t = { s with cStatus := t.cStatus, cRdata := t.cRdata })

/-- The state after power-on reset is sound (10_state.md R32, R54). -/
def Obligations.ResetStateIsSound : Prop := State.reset.Inv

/-- Every step keeps the invariant: the store and snapshot ranges, the phase range, the index and length bounds, the lifecycle, the
rate registers, the clean snapshot, the written delay line, the canonical memories and the status codes (10_state.md R35, R38,
R40–R42, R46; 20_memory.md R94; 60_exceptions.md R281). -/
def Obligations.StepKeepsInvariant : Prop :=
  ∀ s t : State, s.Inv → step s = .next t → t.Inv

/-- In a sound state no step computes an index out of range, meets a reserved lifecycle value or is refused: the model stops only on an
unwritten input sample or a host access out of bounds (20_memory.md R89, R100, R83). -/
def Obligations.SoundStatesStopOnlyByTheHost : Prop :=
  ∀ s : State, s.Inv →
    (∀ f, step s = .fault f → ∃ c n, f = .unwrittenInput c n ∨ f = .hostStuck c n) ∧ ∀ r, step s ≠ .refused r
end

