-- ==== Sys2Proof/Laws/Memory.lean ====
section
/-! SUPPORT. The laws of the word memories: a read after a write or a clear, and that every operation keeps the canonical
form. -/

namespace Sys2Proof.Machine

open Sys2Proof

namespace Bank

variable {V : Type}

@[simp] theorem read?_nil (i : Nat) : read? ([] : Bank V) i = none := rfl

/-- A read of the word just written gives it. -/
@[simp] theorem read?_write_same (b : Bank V) (i : Nat) (v : V) : (b.write i v).read? i = some v := by
  induction b with
  | nil => simp [write, read?]
  | cons e rest ih =>
    obtain ⟨j, u⟩ := e
    unfold write
    split
    · simp [read?]
    · split
      · simp [read?]
      · rename_i _ hne
        simp [read?, Ne.symm hne, ih]

/-- A write leaves every other word alone. -/
theorem read?_write_other (b : Bank V) {i k : Nat} (v : V) (h : k ≠ i) : (b.write i v).read? k = b.read? k := by
  induction b with
  | nil => simp [write, read?, Ne.symm h]
  | cons e rest ih =>
    obtain ⟨j, u⟩ := e
    unfold write
    split
    · simp [read?, Ne.symm h]
    · split
      · rename_i _ heq
        subst heq
        simp [read?, Ne.symm h]
      · simp [read?, ih]

theorem read?_append (a b : Bank V) (i : Nat) : read? (a ++ b) i = (read? a i).or (read? b i) := by
  induction a with
  | nil => simp
  | cons e rest ih =>
    obtain ⟨j, u⟩ := e
    simp only [List.cons_append, read?]
    split <;> simp [ih]

theorem read?_zeros (l : List Nat) (zero : V) (i : Nat) :
    read? (l.map (fun j => (j, zero))) i = if i ∈ l then some zero else none := by
  induction l with
  | nil => simp
  | cons j rest ih =>
    simp only [List.map_cons, read?, ih, List.mem_cons]
    by_cases h : j = i
    · simp [h]
    · simp [h, Ne.symm h]

theorem read?_filter_ge (b : Bank V) (n i : Nat) :
    read? (b.filter (fun e => decide (n ≤ e.1))) i = if n ≤ i then b.read? i else none := by
  induction b with
  | nil => simp
  | cons e rest ih =>
    obtain ⟨j, u⟩ := e
    by_cases hj : n ≤ j
    · simp only [List.filter_cons, hj, decide_true, if_true, read?, ih]
      by_cases h : j = i
      · subst h
        simp [hj]
      · simp [h]
    · simp only [List.filter_cons, hj, decide_false, Bool.false_eq_true, if_false, ih, read?]
      by_cases h : j = i
      · subst h
        simp [hj]
      · simp [h]

/-- A cleared word reads +0.0, and a clear leaves every word from n on alone. -/
theorem read?_clear (b : Bank V) (n i : Nat) (zero : V) :
    (b.clear n zero).read? i = if i < n then some zero else b.read? i := by
  unfold clear
  rw [read?_append, read?_zeros, read?_filter_ge]
  by_cases h : i < n
  · simp [h]
  · simp [h, Nat.le_of_not_lt h]

/-! ## The canonical form -/

theorem wf_nil (cap : Nat) : wf cap ([] : Bank V) := ⟨List.Pairwise.nil, by simp⟩

theorem mem_write {b : Bank V} {i : Nat} {v : V} {e : Nat × V} (h : e ∈ b.write i v) : e = (i, v) ∨ e ∈ b := by
  induction b with
  | nil => simpa [write] using h
  | cons d rest ih =>
    obtain ⟨j, u⟩ := d
    unfold write at h
    split at h
    · simpa using h
    · split at h
      · rcases List.mem_cons.1 h with h | h
        · exact .inl h
        · exact .inr (List.mem_cons_of_mem _ h)
      · rcases List.mem_cons.1 h with h | h
        · exact .inr (by simp [h])
        · rcases ih h with h | h
          · exact .inl h
          · exact .inr (List.mem_cons_of_mem _ h)

/-- A write inside the capacity keeps the canonical form. -/
theorem wf_write {cap : Nat} {b : Bank V} {i : Nat} {v : V} (hb : wf cap b) (hi : i < cap) : wf cap (b.write i v) := by
  refine ⟨?_, fun e he => ?_⟩
  · have hs := hb.1
    clear hb
    induction b with
    | nil => simp [write]
    | cons d rest ih =>
      obtain ⟨j, u⟩ := d
      have hr := List.pairwise_cons.1 hs
      unfold write
      split
      · rename_i hlt
        refine List.pairwise_cons.2 ⟨fun e he => ?_, hs⟩
        rcases List.mem_cons.1 he with he | he
        · simp [he, hlt]
        · exact hlt.trans (hr.1 e he)
      · split
        · rename_i _ heq
          subst heq
          exact List.pairwise_cons.2 ⟨hr.1, hr.2⟩
        · rename_i h1 h2
          refine List.pairwise_cons.2 ⟨fun e he => ?_, ih hr.2⟩
          rcases mem_write he with he | he
          · rw [he]; simp only; omega
          · exact hr.1 e he
  · rcases mem_write he with he | he
    · simpa [he] using hi
    · exact hb.2 e he

/-- A clear inside the capacity keeps the canonical form. -/
theorem wf_clear {cap : Nat} {b : Bank V} {n : Nat} {zero : V} (hb : wf cap b) (hn : n ≤ cap) : wf cap (b.clear n zero) := by
  unfold clear
  refine ⟨List.pairwise_append.2 ⟨?_, hb.1.filter _, ?_⟩, ?_⟩
  · rw [List.pairwise_map]
    exact List.pairwise_lt_range
  · intro e he d hd
    obtain ⟨i, hi, rfl⟩ := List.mem_map.1 he
    have h1 := List.mem_range.1 hi
    have h2 : n ≤ d.1 := by simpa using (List.mem_filter.1 hd).2
    simp only
    omega
  · intro e he
    rcases List.mem_append.1 he with he | he
    · obtain ⟨i, hi, rfl⟩ := List.mem_map.1 he
      have h1 := List.mem_range.1 hi
      simp only
      omega
    · exact hb.2 e (List.mem_filter.1 he).1

end Bank

section
variable {V W : Type} {ch : Nat} {d : Design V W}

/-! ## Memories -/

theorem Memory.wf_set {cap : Nat} {m : Memory V ch} {c : Nat} (hc : c < ch) {b : Bank V} (hm : Memory.wf cap m)
    (hb : Bank.wf cap b) : Memory.wf cap (m.set c b hc) := by
  intro d hd
  rw [Vector.toList_set] at hd
  rcases List.mem_or_eq_of_mem_set hd with h | h
  · exact hm d h
  · rw [h]; exact hb

theorem Memory.wf_map {cap : Nat} {m : Memory V ch} {f : Bank V → Bank V} (hm : Memory.wf cap m)
    (hf : ∀ b, Bank.wf cap b → Bank.wf cap (f b)) : Memory.wf cap (m.map f) := by
  intro d hd
  rw [Vector.toList_map] at hd
  obtain ⟨b, hb, rfl⟩ := List.mem_map.1 hd
  exact hf b (hm b hb)

theorem Memory.wf_getElem {cap : Nat} {m : Memory V ch} (hm : Memory.wf cap m) {c : Nat} (hc : c < ch) :
    Bank.wf cap m[c] := hm _ (by simp)

/-! ## Checked accesses -/

theorem bufRead_ok {b : Bank V} {len c i : Nat} {v : V} :
    d.bufRead b len c i = .ok v ↔
      i < len ∧ i < d.params.bufCap ∧ v = (b.read? i).getD (d.unwrittenBuf c i) := by
  unfold Design.bufRead
  split <;> simp_all [eq_comm]

theorem bufWrite_ok {b b' : Bank V} {len i : Nat} {v : V} :
    d.bufWrite b len i v = .ok b' ↔ i < len ∧ i < d.params.bufCap ∧ b' = b.write i v := by
  unfold Design.bufWrite
  split <;> simp_all [eq_comm]

theorem blkRead_ok {b : Bank V} {c n : Nat} {v : V} :
    d.blkRead b c n = .ok v ↔ n < d.params.blockCap ∧ b.read? n = some v := by
  unfold Design.blkRead
  split
  · split <;> simp_all
  · simp_all

theorem blkRead_error {b : Bank V} {c n : Nat} {f : Fault} :
    d.blkRead b c n = .error f ↔
      (n < d.params.blockCap ∧ b.read? n = none ∧ f = .unwrittenInput c n) ∨
        (¬ n < d.params.blockCap ∧ f = .indexRange) := by
  unfold Design.blkRead
  by_cases h : n < d.params.blockCap
  · cases b.read? n <;> simp [h, eq_comm]
  · simp [h, eq_comm]

theorem blkWrite_ok {b b' : Bank V} {n : Nat} {v : V} :
    d.blkWrite b n v = .ok b' ↔ n < d.params.blockCap ∧ b' = b.write n v := by
  unfold Design.blkWrite
  split <;> simp_all [eq_comm]

/-- ClearBuf: all it can do. -/
theorem clearBuf_ok {s t : State V W ch} :
    s.clearBuf d = .ok t ↔
      s.lReg ≤ d.params.bufCap ∧ t = { s with buf := s.buf.map (Bank.clear · s.lReg d.zero) } := by
  unfold State.clearBuf
  split <;> simp_all [eq_comm]

/-- HostWrite: all it can do when it answers a next state. -/
theorem hostWrite_next {s t : State V W ch} {c n : Nat} {v : V} (h : s.hostWrite d c n v = .next t) :
    ∃ hc : c < ch, n < d.params.blockCap ∧ t = { s with blk := s.blk.set c (s.blk[c].write n v) } := by
  unfold State.hostWrite at h
  split at h
  · rename_i hc
    split at h
    · rename_i hn
      cases h
      exact ⟨hc, hn, rfl⟩
    · cases h
  · cases h

/-- HostRead: all it can do when it answers a next state. -/
theorem hostRead_next {s t : State V W ch} {c n : Nat} (h : s.hostRead d c n = .next t) :
    c < ch ∧ n < d.params.blockCap ∧ t = { s with hostData := (s.blkWord? c n).getD (d.unwrittenBlk c n) } := by
  unfold State.hostRead at h
  split at h
  · rename_i hc
    cases h
    exact ⟨hc.1, hc.2, rfl⟩
  · cases h

theorem outcomeOf_next {r : Except Fault (State V W ch)} {t : State V W ch} : outcomeOf r = .next t ↔ r = .ok t := by
  cases r <;> simp [outcomeOf]

end

end Sys2Proof.Machine
end

