-- ==== Sys2Proof/Laws/Engine.lean ====
section
/-! SUPPORT. What the engine's operations can do, said once each, for every design; proofs about PROCESS_BLOCK cite these. -/

namespace Sys2Proof.Machine

open Sys2Proof

section
variable {V W : Type} {ch : Nat} {d : Design V W}

/-- DL_READ: all it can do when it answers a sample. -/
theorem dlRead_ok {t c w len : Nat} {width : F32} {m y : V} {sr : F64} {b : Bank V} :
    d.dlRead t c width sr len b w m = .ok y ↔
      ∃ i0 fr, d.tap t w len width sr m = some (i0, fr) ∧
        (i0 < len ∧ i0 < d.params.bufCap) ∧ ((i0 + 1) % len < len ∧ (i0 + 1) % len < d.params.bufCap) ∧
        y = d.interpolate t fr ((b.read? i0).getD (d.unwrittenBuf c i0))
          ((b.read? ((i0 + 1) % len)).getD (d.unwrittenBuf c ((i0 + 1) % len))) := by
  unfold Design.dlRead
  cases hf : d.tap t w len width sr m with
  | none => simp
  | some p =>
    obtain ⟨i0, fr⟩ := p
    simp only [Option.some.injEq, Prod.mk.injEq]
    unfold Design.bufRead
    by_cases h1 : (i0 + 1) % len < len ∧ (i0 + 1) % len < d.params.bufCap
    · by_cases h0 : i0 < len ∧ i0 < d.params.bufCap
      · constructor
        · intro h
          simp only [h0, h1, and_self, if_true, Except.ok.injEq] at h
          exact ⟨i0, fr, ⟨rfl, rfl⟩, h0, h1, h.symm⟩
        · rintro ⟨_, _, ⟨rfl, rfl⟩, -, -, rfl⟩
          simp [h0, h1]
      · constructor
        · intro h
          simp only [h0, h1, and_self, if_true, if_false] at h
          cases h
        · rintro ⟨_, _, ⟨rfl, rfl⟩, h, -, -⟩
          exact absurd h h0
    · constructor
      · intro h
        simp only [h1, if_false] at h
        cases h
      · rintro ⟨_, _, ⟨rfl, rfl⟩, -, h, -⟩
        exact absurd h h1

/-- DL_READ stops only by INDEX_RANGE. -/
theorem dlRead_error {t c w len : Nat} {width : F32} {m : V} {sr : F64} {b : Bank V} {f : Fault}
    (h : d.dlRead t c width sr len b w m = .error f) : f = .indexRange := by
  unfold Design.dlRead at h
  split at h
  · cases h; rfl
  · split at h
    · cases h
    · cases h; rfl

/-- SAMPLE_STEP: all it can do when it answers a lane. -/
theorem sampleStep_ok {e : BlockEnv W} {c n : Nat} {l l' : Lane V} :
    d.sampleStep e c n l = .ok l' ↔
      ∃ x y, (n < d.params.blockCap ∧ l.blk.read? n = some x) ∧
        d.dlRead (e.base + n) c e.width e.sr e.len l.buf l.w (d.lfo l.p) = .ok y ∧
        (l.w < e.len ∧ l.w < d.params.bufCap) ∧
        l' = { buf := l.buf.write l.w x, blk := l.blk.write n y,
               p := d.phaseAdv (e.base + n) e.freq e.invSr l.p, w := nextIndex e.len l.w } := by
  unfold Design.sampleStep Design.dlWrite Design.lfoEval
  cases hx : d.blkRead l.blk c n with
  | error f =>
    simp only [bind, Except.bind]
    constructor
    · intro h; cases h
    · rintro ⟨x, y, hr, -⟩
      rw [blkRead_ok.2 hr] at hx
      cases hx
  | ok x =>
    have hx' := blkRead_ok.1 hx
    cases hy : d.dlRead (e.base + n) c e.width e.sr e.len l.buf l.w (d.lfo l.p) with
    | error f => simp [bind, Except.bind, hy]
    | ok y =>
      simp only [bind, Except.bind, hy, Design.bufWrite, Design.blkWrite, hx'.1, if_true, pure, Except.pure]
      by_cases hw : l.w < e.len ∧ l.w < d.params.bufCap
      · simp [hw, hx'.2, eq_comm]
      · simp only [hw, if_false]
        constructor
        · intro h; cases h
        · rintro ⟨_, _, _, _, h, -⟩
          cases h

/-- SAMPLE_STEP stops by UNWRITTEN_INPUT on an unwritten input sample, and otherwise only by INDEX_RANGE. -/
theorem sampleStep_error {e : BlockEnv W} {c n : Nat} {l : Lane V} {f : Fault} (h : d.sampleStep e c n l = .error f) :
    f = .indexRange ∨ (f = .unwrittenInput c n ∧ l.blk.read? n = none) := by
  unfold Design.sampleStep Design.dlWrite at h
  cases hx : d.blkRead l.blk c n with
  | error g =>
    rw [hx] at h
    simp only [bind, Except.bind, Except.error.injEq] at h
    subst h
    rcases blkRead_error.1 hx with ⟨-, hn, hf⟩ | ⟨-, hf⟩
    · exact .inr ⟨hf, hn⟩
    · exact .inl hf
  | ok x =>
    left
    rw [hx] at h
    simp only [bind, Except.bind] at h
    cases hy : d.dlRead (e.base + n) c e.width e.sr e.len l.buf l.w (d.lfoEval l.p) with
    | error g =>
      rw [hy] at h
      simp only [Except.error.injEq] at h
      subst h
      exact dlRead_error hy
    | ok y =>
      rw [hy] at h
      simp only [Design.bufWrite, Design.blkWrite] at h
      split at h
      · rename_i hb
        simp only [Except.error.injEq] at h
        subst h
        split at hb <;> simp_all
      · split at h
        · rename_i hb
          simp only [Except.error.injEq] at h
          subst h
          split at hb <;> simp_all
        · cases h

@[simp] theorem runSamples_zero (e : BlockEnv W) (c n : Nat) (l : Lane V) : d.runSamples e c 0 n l = .ok l := rfl

/-- The sample loop, one sample at a time. -/
theorem runSamples_succ_ok {e : BlockEnv W} {c count n : Nat} {l l' : Lane V} :
    d.runSamples e c (count + 1) n l = .ok l' ↔
      ∃ m, d.sampleStep e c n l = .ok m ∧ d.runSamples e c count (n + 1) m = .ok l' := by
  simp only [Design.runSamples, bind, Except.bind]
  cases d.sampleStep e c n l <;> simp

@[simp] theorem runChannels_zero (e : BlockEnv W) (nsamp c w0 : Nat) (p0 : V) (ls : Lanes V ch) :
    d.runChannels e nsamp p0 w0 0 c ls = .ok ls := rfl

/-- The channel loop, one channel at a time. -/
theorem runChannels_succ_ok {e : BlockEnv W} {nsamp count c w0 : Nat} {p0 : V} {ls ls' : Lanes V ch} :
    d.runChannels e nsamp p0 w0 (count + 1) c ls = .ok ls' ↔
      ∃ hc : c < ch, ∃ l,
        d.runSamples e c nsamp 0 { buf := ls.buf[c], blk := ls.blk[c], p := p0, w := w0 } = .ok l ∧
        d.runChannels e nsamp p0 w0 count (c + 1)
          { buf := ls.buf.set c l.buf, blk := ls.blk.set c l.blk, pEnd := l.p, wEnd := l.w } = .ok ls' := by
  simp only [Design.runChannels, bind, Except.bind]
  split
  · rename_i hc
    cases hr : d.runSamples e c nsamp 0 { buf := ls.buf[c], blk := ls.blk[c], p := p0, w := w0 } <;> simp [hc, hr]
  · rename_i hc
    simp [hc]

/-- Clearing output channels: which word reads what after it. -/
theorem clearChannels_read? (blk : Memory V ch) (lo hi nsamp : Nat) (zero : V) {c : Nat} (hc : c < ch) (n : Nat) :
    (clearChannels blk lo hi nsamp zero)[c].read? n =
      if (lo ≤ c ∧ c < hi) ∧ n < nsamp then some zero else blk[c].read? n := by
  unfold clearChannels
  rw [Vector.getElem_mapIdx]
  by_cases h : lo ≤ c ∧ c < hi
  · simp [h, Bank.read?_clear]
  · simp [h]

/-- The body of PROCESS_BLOCK: all it can do when it answers a state. -/
theorem blockBody_ok {nin nout nsamp : Nat} {s t : State V W ch} :
    d.blockBody nin nout nsamp s = .ok t ↔
      ∃ ls, d.runChannels s.blockEnv nsamp s.phase s.widx nin 0
              { buf := s.buf, blk := s.blk, pEnd := s.phase, wEnd := s.widx } = .ok ls ∧
        t = State.respond
          { s with buf := ls.buf, blk := clearChannels ls.blk nin nout nsamp d.zero, phase := ls.pEnd, widx := ls.wEnd,
                   draws := s.draws + nsamp } .host .ok 0 := by
  unfold Design.blockBody
  simp only [bind, Except.bind]
  cases d.runChannels s.blockEnv nsamp s.phase s.widx nin 0
      { buf := s.buf, blk := s.blk, pEnd := s.phase, wEnd := s.widx } <;> simp [pure, Except.pure, eq_comm]

/-- PROCESS_BLOCK: all it can do when it answers a next state. -/
theorem processBlock_next {nin nout nsamp : Nat} {s t : State V W ch}
    (h : d.processBlock nin nout nsamp s = .next t) :
    (s.lc = lcUninit ∧ t = s.respond .host .notPrepared 0) ∨
    (s.lc ≠ lcUninit ∧ outOfBounds nin nout nsamp d.params = true ∧ t = s.respond .host .bounds 0) ∨
    (s.lc ≠ lcUninit ∧ outOfBounds nin nout nsamp d.params = false ∧ d.blockBody nin nout nsamp s.refreshIfDirty = .ok t) := by
  unfold Design.processBlock State.isPrepared at h
  split at h
  · cases h
  · split at h
    · rename_i hl
      cases h
      left
      exact ⟨by simpa using hl, rfl⟩
    · rename_i hl
      right
      have hl : s.lc ≠ lcUninit := by simpa using hl
      split at h
      · rename_i hb
        cases h
        exact .inl ⟨hl, hb, rfl⟩
      · rename_i hb
        exact .inr ⟨hl, by simpa using hb, outcomeOf_next.1 h⟩

end

end Sys2Proof.Machine
end

