-- ==== Sys2Proof/Laws/Float.lean ====
section
/-! SUPPORT. What the rounding primitives do, said once: rounding is monotonic, rounds nothing that is representable, and
decoding a magnitude is monotonic. Proofs about the datapath cite these instead of unfolding `roundMag`. -/

namespace Sys2Proof

/-! ## Rounding to an integer -/

/-- `roundTiesEven` answers a nearest integer, and an even one at a tie. -/
theorem roundTiesEven_spec (num den : Nat) (hd : 0 < den) :
    2 * (roundTiesEven num den * den) ≤ 2 * num + den ∧
    2 * num ≤ 2 * (roundTiesEven num den * den) + den ∧
    (2 * (roundTiesEven num den * den) = 2 * num + den → roundTiesEven num den % 2 = 0) ∧
    (2 * num = 2 * (roundTiesEven num den * den) + den → roundTiesEven num den % 2 = 0) := by
  have hdm : den * (num / den) + num % den = num := Nat.div_add_mod num den
  have hlt : num % den < den := Nat.mod_lt _ hd
  unfold roundTiesEven
  generalize num / den = q at *
  generalize num % den = r at *
  have hc : q * den = den * q := Nat.mul_comm _ _
  have hs : (q + 1) * den = den * q + den := by ring
  simp only
  split
  · refine ⟨?_, ?_, ?_, ?_⟩ <;> omega
  · split
    · refine ⟨?_, ?_, ?_, ?_⟩ <;> omega
    · rcases Nat.mod_two_eq_zero_or_one q with h | h
      · rw [h, Nat.add_zero]
        refine ⟨?_, ?_, ?_, ?_⟩ <;> omega
      · rw [h]
        refine ⟨?_, ?_, ?_, ?_⟩ <;> omega

/-- A larger fraction rounds to no smaller integer. -/
theorem roundTiesEven_mono {n₁ d₁ n₂ d₂ : Nat} (h₁ : 0 < d₁) (h₂ : 0 < d₂) (h : n₁ * d₂ ≤ n₂ * d₁) :
    roundTiesEven n₁ d₁ ≤ roundTiesEven n₂ d₂ := by
  obtain ⟨a₁, -, e₁, -⟩ := roundTiesEven_spec n₁ d₁ h₁
  obtain ⟨-, b₂, -, e₂⟩ := roundTiesEven_spec n₂ d₂ h₂
  generalize roundTiesEven n₁ d₁ = r₁ at *
  generalize roundTiesEven n₂ d₂ = r₂ at *
  by_contra hlt
  have hr : r₂ + 1 ≤ r₁ := by omega
  -- both roundings are ties at the same half integer, so r₁ = r₂ + 1 with both even
  have c₁ : (2 * r₁) * d₁ * d₂ ≤ (2 * n₁ + d₁) * d₂ := Nat.mul_le_mul_right _ (by linarith)
  have c₂ : (2 * n₂) * d₁ ≤ (2 * r₂ + 1) * d₂ * d₁ := by
    have := Nat.mul_le_mul_right d₁ b₂
    nlinarith
  have c₃ : (2 * (r₂ + 1)) * (d₁ * d₂) ≤ (2 * r₁) * (d₁ * d₂) := Nat.mul_le_mul_right _ (by omega)
  have hp : 0 < d₁ * d₂ := Nat.mul_pos h₁ h₂
  have t₁ : (2 * r₁) * (d₁ * d₂) = (2 * n₁ + d₁) * d₂ := by nlinarith
  have t₂ : (2 * n₂) * d₁ = (2 * r₂ + 1) * d₂ * d₁ := by nlinarith
  have t₃ : (2 * (r₂ + 1)) * (d₁ * d₂) = (2 * r₁) * (d₁ * d₂) := by nlinarith
  have u₁ : 2 * (r₁ * d₁) = 2 * n₁ + d₁ := Nat.eq_of_mul_eq_mul_right h₂ (by linarith)
  have u₂ : 2 * n₂ = 2 * (r₂ * d₂) + d₂ := Nat.eq_of_mul_eq_mul_right h₁ (by linarith)
  have u₃ : 2 * (r₂ + 1) = 2 * r₁ := Nat.eq_of_mul_eq_mul_right hp t₃
  have := e₁ u₁
  have := e₂ u₂
  omega

/-- An integer rounds to itself. -/
theorem roundTiesEven_exact (q d : Nat) (hd : 0 < d) : roundTiesEven (q * d) d = q := by
  unfold roundTiesEven
  simp [Nat.mul_div_cancel _ hd, Nat.mul_mod_left, hd]

/-! ## Rounding to a format -/

namespace Format

variable (f : Format)

theorem infBits_pos (h : 0 < f.expBits) : 0 < f.infBits := by
  unfold infBits
  have : 2 ≤ 2 ^ f.expBits := by
    calc 2 = 2 ^ 1 := rfl
      _ ≤ 2 ^ f.expBits := Nat.pow_le_pow_right (by decide) h
  exact Nat.mul_pos (by omega) (Nat.two_pow_pos _)

theorem roundMag_le_infBits (n d : Nat) : f.roundMag n d ≤ f.infBits := by
  unfold roundMag
  exact Nat.min_le_left _ _

/-- The significand that `roundMag` forms is at most 2^(fracBits+1). -/
theorem roundMag_significand_le (u d : Nat) (hd : 0 < d) :
    roundTiesEven u (d * 2 ^ (Nat.log2 (u / d) - f.fracBits)) ≤ 2 ^ (f.fracBits + 1) := by
  set k := Nat.log2 (u / d) - f.fracBits with hk
  have hlog : u / d < 2 ^ (k + f.fracBits + 1) := by
    have h1 : u / d < 2 ^ (Nat.log2 (u / d) + 1) := Nat.lt_log2_self
    exact lt_of_lt_of_le h1 (Nat.pow_le_pow_right (by decide) (by omega))
  have hu : u < 2 ^ (k + f.fracBits + 1) * d := (Nat.div_lt_iff_lt_mul hd).1 hlog
  have hdk : 0 < d * 2 ^ k := Nat.mul_pos hd (Nat.two_pow_pos _)
  calc roundTiesEven u (d * 2 ^ k)
      ≤ roundTiesEven (2 ^ (f.fracBits + 1) * (d * 2 ^ k)) (d * 2 ^ k) := by
        apply roundTiesEven_mono hdk hdk
        apply Nat.mul_le_mul_right
        have : 2 ^ (k + f.fracBits + 1) * d = 2 ^ (f.fracBits + 1) * (d * 2 ^ k) := by
          rw [show k + f.fracBits + 1 = (f.fracBits + 1) + k by omega, pow_add]; ring
        omega
    _ = 2 ^ (f.fracBits + 1) := roundTiesEven_exact _ _ hdk

/-- Above the subnormal range the significand is at least 2^fracBits. -/
theorem roundMag_significand_ge (u d : Nat) (hd : 0 < d) (hk : 0 < Nat.log2 (u / d) - f.fracBits) :
    2 ^ f.fracBits ≤ roundTiesEven u (d * 2 ^ (Nat.log2 (u / d) - f.fracBits)) := by
  set k := Nat.log2 (u / d) - f.fracBits with hkd
  have hne : u / d ≠ 0 := by
    intro h0
    rw [h0] at hkd
    simp at hkd
    omega
  have hlog : 2 ^ (k + f.fracBits) ≤ u / d := by
    have h1 := Nat.log2_self_le hne
    have h2 : k + f.fracBits = Nat.log2 (u / d) := by omega
    rwa [h2]
  have hu : 2 ^ (k + f.fracBits) * d ≤ u := (Nat.le_div_iff_mul_le hd).1 hlog
  have hdk : 0 < d * 2 ^ k := Nat.mul_pos hd (Nat.two_pow_pos _)
  calc 2 ^ f.fracBits = roundTiesEven (2 ^ f.fracBits * (d * 2 ^ k)) (d * 2 ^ k) :=
        (roundTiesEven_exact _ _ hdk).symm
    _ ≤ roundTiesEven u (d * 2 ^ k) := by
        apply roundTiesEven_mono hdk hdk
        apply Nat.mul_le_mul_right
        have : 2 ^ (k + f.fracBits) * d = 2 ^ f.fracBits * (d * 2 ^ k) := by
          rw [show k + f.fracBits = f.fracBits + k by omega, pow_add]; ring
        omega

/-- A larger value rounds to no smaller encoding. -/
theorem roundMag_mono {n₁ d₁ n₂ d₂ : Nat} (h₁ : 0 < d₁) (h₂ : 0 < d₂) (h : n₁ * d₂ ≤ n₂ * d₁) :
    f.roundMag n₁ d₁ ≤ f.roundMag n₂ d₂ := by
  unfold roundMag
  simp only
  set u₁ := n₁ * 2 ^ f.scale
  set u₂ := n₂ * 2 ^ f.scale
  have hu : u₁ * d₂ ≤ u₂ * d₁ := by
    have := Nat.mul_le_mul_right (2 ^ f.scale) h
    calc u₁ * d₂ = n₁ * d₂ * 2 ^ f.scale := by simp only [u₁]; ring
      _ ≤ n₂ * d₁ * 2 ^ f.scale := this
      _ = u₂ * d₁ := by simp only [u₂]; ring
  have ht : u₁ / d₁ ≤ u₂ / d₂ := by
    rw [Nat.le_div_iff_mul_le h₂]
    have h3 : u₁ / d₁ * d₁ ≤ u₁ := Nat.div_mul_le_self _ _
    have h4 : u₁ / d₁ * d₂ * d₁ ≤ u₂ * d₁ := by
      calc u₁ / d₁ * d₂ * d₁ = u₁ / d₁ * d₁ * d₂ := by ring
        _ ≤ u₁ * d₂ := Nat.mul_le_mul_right _ h3
        _ ≤ u₂ * d₁ := hu
    exact Nat.le_of_mul_le_mul_right h4 h₁
  have hlog : Nat.log2 (u₁ / d₁) ≤ Nat.log2 (u₂ / d₂) := by
    simp only [Nat.log2_eq_log_two]
    exact Nat.log_mono_right ht
  apply min_le_min_left
  have s₁ := f.roundMag_significand_le u₁ d₁ h₁
  have s₂ := f.roundMag_significand_ge u₂ d₂ h₂
  set k₁ := Nat.log2 (u₁ / d₁) - f.fracBits
  set k₂ := Nat.log2 (u₂ / d₂) - f.fracBits
  have hk : k₁ ≤ k₂ := Nat.sub_le_sub_right hlog _
  rcases Nat.eq_or_lt_of_le hk with heq | hlt
  · rw [heq]
    apply Nat.add_le_add_left
    apply roundTiesEven_mono (Nat.mul_pos h₁ (Nat.two_pow_pos _)) (Nat.mul_pos h₂ (Nat.two_pow_pos _))
    have := Nat.mul_le_mul_right (2 ^ k₂) hu
    calc u₁ * (d₂ * 2 ^ k₂) = u₁ * d₂ * 2 ^ k₂ := by ring
      _ ≤ u₂ * d₁ * 2 ^ k₂ := this
      _ = u₂ * (d₁ * 2 ^ k₂) := by ring
  · have s₂ := s₂ (by omega)
    have e : 2 ^ (f.fracBits + 1) = 2 * 2 ^ f.fracBits := by rw [pow_succ]; ring
    have hm : (k₁ + 1) * 2 ^ f.fracBits ≤ k₂ * 2 ^ f.fracBits := Nat.mul_le_mul_right _ hlt
    rw [Nat.add_mul] at hm
    omega

/-- Equal values round alike, however they are written. -/
theorem roundMag_congr {n₁ d₁ n₂ d₂ : Nat} (h₁ : 0 < d₁) (h₂ : 0 < d₂) (h : n₁ * d₂ = n₂ * d₁) :
    f.roundMag n₁ d₁ = f.roundMag n₂ d₂ :=
  Nat.le_antisymm (f.roundMag_mono h₁ h₂ h.le) (f.roundMag_mono h₂ h₁ h.ge)

/-- A value of the format rounds to its own encoding. -/
theorem roundMag_exact (mag : Nat) (h : mag ≤ f.infBits) : f.roundMag (f.magUnits mag) (2 ^ f.scale) = mag := by
  have hB : 0 < 2 ^ f.scale := Nat.two_pow_pos _
  have hP : 0 < 2 ^ f.fracBits := Nat.two_pow_pos _
  unfold roundMag
  simp only [Nat.mul_div_cancel _ hB]
  have hdm := Nat.div_add_mod mag (2 ^ f.fracBits)
  have hmod := Nat.mod_lt mag hP
  unfold magUnits
  split
  · rename_i h0
    have hlt : mag < 2 ^ f.fracBits := by
      rw [h0] at hdm
      omega
    have hk : Nat.log2 mag - f.fracBits = 0 := by
      rcases Nat.eq_zero_or_pos mag with hz | hz
      · simp [hz]
      · have : Nat.log2 mag < f.fracBits := (Nat.log2_lt (by omega)).2 hlt
        omega
    rw [hk]
    simp only [pow_zero, Nat.mul_one, Nat.zero_mul, Nat.zero_add]
    rw [roundTiesEven_exact _ _ hB]
    exact Nat.min_eq_right h
  · rename_i h0
    set E := mag / 2 ^ f.fracBits
    set r := mag % 2 ^ f.fracBits
    have hE : 1 ≤ E := Nat.one_le_iff_ne_zero.2 h0
    have hlog : Nat.log2 ((r + 2 ^ f.fracBits) * 2 ^ (E - 1)) = f.fracBits + (E - 1) := by
      rw [Nat.log2_eq_iff (by positivity)]
      constructor
      · rw [pow_add]
        exact Nat.mul_le_mul_right _ (by omega)
      · rw [show f.fracBits + (E - 1) + 1 = (f.fracBits + 1) + (E - 1) by omega, pow_add]
        apply Nat.mul_lt_mul_of_pos_right _ (Nat.two_pow_pos _)
        rw [pow_succ]
        omega
    rw [hlog, Nat.add_sub_cancel_left]
    have hrw : (r + 2 ^ f.fracBits) * 2 ^ (E - 1) * 2 ^ f.scale = (r + 2 ^ f.fracBits) * (2 ^ f.scale * 2 ^ (E - 1)) := by
      ring
    rw [hrw, roundTiesEven_exact _ _ (by positivity)]
    have hEq : (E - 1) * 2 ^ f.fracBits + (r + 2 ^ f.fracBits) = mag := by
      have : E * 2 ^ f.fracBits = (E - 1) * 2 ^ f.fracBits + 2 ^ f.fracBits := by
        obtain ⟨e, he⟩ : ∃ e, E = e + 1 := ⟨E - 1, by omega⟩
        rw [he]
        simp [Nat.add_mul]
      rw [Nat.mul_comm] at hdm
      omega
    rw [hEq]
    exact Nat.min_eq_right h

/-- A value at most that of an encoding rounds to at most that encoding. -/
theorem roundMag_le_of_le {n d mag : Nat} (hd : 0 < d) (hm : mag ≤ f.infBits)
    (h : n * 2 ^ f.scale ≤ f.magUnits mag * d) : f.roundMag n d ≤ mag := by
  have := f.roundMag_mono hd (Nat.two_pow_pos f.scale) h
  rwa [f.roundMag_exact mag hm] at this

/-- A value at least that of an encoding rounds to at least that encoding. -/
theorem le_roundMag_of_le {n d mag : Nat} (hd : 0 < d) (hm : mag ≤ f.infBits)
    (h : f.magUnits mag * d ≤ n * 2 ^ f.scale) : mag ≤ f.roundMag n d := by
  have := f.roundMag_mono (Nat.two_pow_pos f.scale) hd h
  rwa [f.roundMag_exact mag hm] at this

/-- A larger magnitude encoding has a larger value. -/
theorem magUnits_mono {a b : Nat} (h : a ≤ b) : f.magUnits a ≤ f.magUnits b := by
  have hP : 0 < 2 ^ f.fracBits := Nat.two_pow_pos _
  have ha := Nat.div_add_mod a (2 ^ f.fracBits)
  have hb := Nat.div_add_mod b (2 ^ f.fracBits)
  have hma := Nat.mod_lt a hP
  have hmb := Nat.mod_lt b hP
  have hdiv : a / 2 ^ f.fracBits ≤ b / 2 ^ f.fracBits := Nat.div_le_div_right h
  unfold magUnits
  generalize a / 2 ^ f.fracBits = Ea at *
  generalize b / 2 ^ f.fracBits = Eb at *
  generalize a % 2 ^ f.fracBits = ra at *
  generalize b % 2 ^ f.fracBits = rb at *
  split
  · split
    · exact h
    · have : 1 ≤ 2 ^ (Eb - 1) := Nat.one_le_two_pow
      calc a ≤ (rb + 2 ^ f.fracBits) * 1 := by simp_all; omega
        _ ≤ _ := Nat.mul_le_mul_left _ this
  · split
    · omega
    · rcases Nat.eq_or_lt_of_le hdiv with he | hlt
      · subst he
        apply Nat.mul_le_mul_right
        omega
      · calc (ra + 2 ^ f.fracBits) * 2 ^ (Ea - 1) ≤ (2 * 2 ^ f.fracBits) * 2 ^ (Ea - 1) :=
              Nat.mul_le_mul_right _ (by omega)
          _ = 2 ^ f.fracBits * 2 ^ (Ea - 1 + 1) := by rw [pow_succ]; ring
          _ ≤ (rb + 2 ^ f.fracBits) * 2 ^ (Eb - 1) :=
              Nat.mul_le_mul (by omega) (Nat.pow_le_pow_right (by decide) (by omega))

end Format

/-! ## Encodings -/

namespace F32

/-- The greatest magnitude encoding, 2^31 − 1, is above that of infinity. -/
theorem infBits_eq : Format.binary32.infBits = 0x7F800000 := by decide

theorem toNat_ofSignMag (neg : Bool) {m : Nat} (h : m < 2 ^ 31) :
    (ofSignMag neg m).toNat = (if neg then 2 ^ 31 else 0) + m := by
  unfold ofSignMag
  rw [BitVec.toNat_ofNat, Nat.mod_eq_of_lt]
  split <;> omega

@[simp] theorem mag_ofSignMag (neg : Bool) {m : Nat} (h : m < 2 ^ 31) : mag (ofSignMag neg m) = m := by
  unfold mag
  rw [toNat_ofSignMag neg h]
  cases neg <;> simp <;> omega

@[simp] theorem isNeg_ofSignMag (neg : Bool) {m : Nat} (h : m < 2 ^ 31) : isNeg (ofSignMag neg m) = neg := by
  unfold isNeg
  rw [BitVec.msb_eq_decide, toNat_ofSignMag neg h]
  cases neg <;> simp
  omega

theorem mag_lt (x : F32) : mag x < 2 ^ 31 := Nat.mod_lt _ (by decide)

/-- An encoding is its sign and its magnitude. -/
theorem ofSignMag_isNeg_mag (x : F32) : ofSignMag (isNeg x) (mag x) = x := by
  apply BitVec.eq_of_toNat_eq
  rw [toNat_ofSignMag _ (mag_lt x)]
  unfold isNeg mag
  rw [BitVec.msb_eq_decide]
  have := x.isLt
  split <;> rename_i h <;> simp at h <;> omega

/-- The value of a finite encoding. -/
theorem val_finite {x : F32} (h : mag x < Format.binary32.infBits) :
    val x = .fin (isNeg x) (Format.binary32.magUnits (mag x)) (2 ^ Format.binary32.scale) := by
  unfold val Format.decodeValue
  rw [if_pos h]

end F32

namespace F64

theorem infBits_eq : Format.binary64.infBits = 0x7FF0000000000000 := by decide

theorem toNat_ofSignMag (neg : Bool) {m : Nat} (h : m < 2 ^ 63) :
    (ofSignMag neg m).toNat = (if neg then 2 ^ 63 else 0) + m := by
  unfold ofSignMag
  rw [BitVec.toNat_ofNat, Nat.mod_eq_of_lt]
  split <;> omega

@[simp] theorem mag_ofSignMag (neg : Bool) {m : Nat} (h : m < 2 ^ 63) : mag (ofSignMag neg m) = m := by
  unfold mag
  rw [toNat_ofSignMag neg h]
  cases neg <;> simp <;> omega

@[simp] theorem isNeg_ofSignMag (neg : Bool) {m : Nat} (h : m < 2 ^ 63) : isNeg (ofSignMag neg m) = neg := by
  unfold isNeg
  rw [BitVec.msb_eq_decide, toNat_ofSignMag neg h]
  cases neg <;> simp
  omega

theorem mag_lt (x : F64) : mag x < 2 ^ 63 := Nat.mod_lt _ (by decide)

/-- The value of a finite encoding. -/
theorem val_finite {x : F64} (h : mag x < Format.binary64.infBits) :
    val x = .fin (isNeg x) (Format.binary64.magUnits (mag x)) (2 ^ Format.binary64.scale) := by
  unfold val Format.decodeValue
  rw [if_pos h]

end F64

/-- Rounding a finite value: the sign is kept, the magnitude is `roundMag`'s. -/
theorem rnd32_fin (free : F32) (neg : Bool) (n d : Nat) :
    F32.isNeg (rnd32 free (.fin neg n d)) = neg ∧ F32.mag (rnd32 free (.fin neg n d)) = Format.binary32.roundMag n d := by
  have h : Format.binary32.roundMag n d < 2 ^ 31 :=
    lt_of_le_of_lt (Format.roundMag_le_infBits _ _ _) (by rw [F32.infBits_eq]; decide)
  exact ⟨F32.isNeg_ofSignMag neg h, F32.mag_ofSignMag neg h⟩

theorem rnd64_fin (neg : Bool) (n d : Nat) :
    F64.isNeg (rnd64 (.fin neg n d)) = neg ∧ F64.mag (rnd64 (.fin neg n d)) = Format.binary64.roundMag n d := by
  have h : Format.binary64.roundMag n d < 2 ^ 63 :=
    lt_of_le_of_lt (Format.roundMag_le_infBits _ _ _) (by rw [F64.infBits_eq]; decide)
  exact ⟨F64.isNeg_ofSignMag neg h, F64.mag_ofSignMag neg h⟩

/-- A value of binary32 rounds to its own encoding. -/
theorem rnd32_val (free x : F32) (h : F32.mag x < Format.binary32.infBits) : rnd32 free (F32.val x) = x := by
  rw [F32.val_finite h]
  show F32.ofSignMag _ (Format.binary32.roundMag _ (2 ^ Format.binary32.scale)) = x
  rw [Format.roundMag_exact _ _ h.le]
  exact F32.ofSignMag_isNeg_mag x

end Sys2Proof
end

