-- ==== Sys2Proof/Laws/Parametric.lean ====
section
/-! SUPPORT. The machine of this hardware is the parametric machine at the values of R7. -/

namespace Sys2Proof.Machine

open Sys2Proof

theorem exec_eq (i : Instr) (s : State) : exec i s = hardware.exec i s := by
  cases i <;> rfl

theorem receive_eq (s : State) (port : Port) (p : Packet) : State.receive s port p = hardware.receive s port p := by
  unfold State.receive Design.receive
  cases deliver port p <;> simp only [exec_eq]

theorem step_eq (s : State) : step s = hardware.step s := by
  unfold step Design.step
  cases s.pending with
  | nil => rfl
  | cons e rest => cases e <;> simp only [receive_eq]

/-- The host's core is the machine of the parameters of R7 with LFO_FN. -/
theorem core_eq : Sys2Proof.core = machineOf Config.params lfoFn := by
  have h : step = hardware.step := funext step_eq
  unfold Sys2Proof.core
  rw [h]
  rfl

end Sys2Proof.Machine
end

