-- ==== Sys2Proof/Laws/PerInstr.lean ====
section
/-! SUPPORT. The opcode table, one lemma per command: the command word of a well-formed command has the fixed bits of its row of
spec/opcode_table.json (`mask`, `match`), and ignored payload bits are 0 (30_encoding.md R112–R118, R121). -/

namespace Sys2Proof.Laws.OpcodeRow

open Sys2Proof

/-- The `mask` of a command's row. -/
def mask : Instr → BitVec 32
  | .init => 0xFFFFFFFF#32
  | .prepare _ _ => 0xFF000000#32
  | .processBlock _ _ _ => 0xF0000000#32
  | .reset => 0xFFFFFFFF#32
  | .setParam _ _ => 0xFFFFFFFE#32
  | .readParams => 0xFFFFFFFF#32
  | .loadParams _ _ _ => 0xFFFFFFFE#32

/-- The `match` of a command's row. -/
def pattern : Instr → BitVec 32
  | .init => 0x10000000#32
  | .prepare _ _ => 0x20000000#32
  | .processBlock _ _ _ => 0x30000000#32
  | .reset => 0x40000000#32
  | .setParam _ _ => 0x50000000#32
  | .readParams => 0x60000000#32
  | .loadParams _ _ _ => 0x70000000#32

/-- The payload bits that a command's format reads. -/
def payloadMask : Instr → BitVec 64
  | .init => 0
  | .prepare _ _ => 0xFFFFFFFFFFFFFFFF#64
  | .processBlock _ _ _ => 0
  | .reset => 0
  | .setParam _ _ => 0x00000000FFFFFFFF#64
  | .readParams => 0
  | .loadParams _ _ _ => 0xFFFFFFFFFFFFFFFF#64

/-- The encoded command lies in its row of the opcode table. -/
def Statement (i : Instr) : Prop :=
  i.wellFormed = true →
    (encode i).cw &&& mask i = pattern i ∧ (encode i).pl &&& payloadMask i = (encode i).pl

theorem and_all (v : BitVec 64) : v &&& 0xFFFFFFFFFFFFFFFF#64 = v := BitVec.and_allOnes

theorem init : Statement .init := fun _ => by decide

theorem prepare (maxblk : Nat) (sr : F64) : Statement (.prepare maxblk sr) := fun _ => by
  refine ⟨?_, and_all sr⟩
  show (0x2#4 ++ 0#4 ++ BitVec.ofNat 24 maxblk) &&& 0xFF000000#32 = 0x20000000#32
  generalize BitVec.ofNat 24 maxblk = v
  refine BitVec.eq_of_getLsbD_eq fun i hi => ?_
  simp only [BitVec.getLsbD_and, BitVec.getLsbD_append]
  interval_cases i <;> simp

theorem processBlock (nin nout nsamp : Nat) : Statement (.processBlock nin nout nsamp) := fun _ => by
  refine ⟨?_, (by decide : (0#64) &&& 0#64 = 0#64)⟩
  show (0x3#4 ++ BitVec.ofNat 4 nin ++ BitVec.ofNat 4 nout ++ BitVec.ofNat 20 nsamp) &&& 0xF0000000#32 = 0x30000000#32
  generalize BitVec.ofNat 4 nin = a
  generalize BitVec.ofNat 4 nout = b
  generalize BitVec.ofNat 20 nsamp = v
  refine BitVec.eq_of_getLsbD_eq fun i hi => ?_
  simp only [BitVec.getLsbD_and, BitVec.getLsbD_append]
  interval_cases i <;> simp

theorem reset : Statement .reset := fun _ => by decide

theorem setParam (pid : ParamId) (value : F32) : Statement (.setParam pid value) := fun _ => by
  have hp : (0#32 ++ value) &&& 0x00000000FFFFFFFF#64 = 0#32 ++ value := by
    refine BitVec.eq_of_getLsbD_eq fun i hi => ?_
    simp only [BitVec.getLsbD_and, BitVec.getLsbD_append]
    interval_cases i <;> simp
  cases pid
  · exact ⟨(by decide : (0x5#4 ++ 0#27 ++ 0#1) &&& 0xFFFFFFFE#32 = 0x50000000#32), hp⟩
  · exact ⟨(by decide : (0x5#4 ++ 0#27 ++ 1#1) &&& 0xFFFFFFFE#32 = 0x50000000#32), hp⟩

theorem readParams : Statement .readParams := fun _ => by decide

theorem loadParams (ok : Bool) (rate depth : F32) : Statement (.loadParams ok rate depth) := fun _ => by
  have h : ∀ k : Bool, (0x7#4 ++ 0#27 ++ BitVec.ofBool k) &&& 0xFFFFFFFE#32 = 0x70000000#32 := by decide
  exact ⟨h ok, and_all (depth ++ rate)⟩

end Sys2Proof.Laws.OpcodeRow
end

