-- ==== Sys2Proof/Laws/State.lean ====
section
/-! SUPPORT. One lemma per field per update of the state, so that no proof unfolds a record update. -/

namespace Sys2Proof.Machine

open Sys2Proof

/-! ## This hardware -/

@[simp] theorem hardware_params : hardware.params = Config.params := by delta hardware binary32; rfl
@[simp] theorem hardware_zero : hardware.zero = 0x00000000#32 := by delta hardware binary32; rfl
@[simp] theorem hardware_zeroRate : hardware.zeroRate = 0x0000000000000000#64 := by delta hardware binary32; rfl
@[simp] theorem hardware_invSr (r : F64) : hardware.invSr r = rnd64 (F64.val r).recip := by delta hardware binary32; rfl
@[simp] theorem hardware_lsize (r : F64) : hardware.lsize r = lsize r := by delta hardware binary32; rfl
@[simp] theorem hardware_lfo : hardware.lfo = lfoFn := by delta hardware binary32; rfl
@[simp] theorem hardware_phaseAdv : hardware.phaseAdv = phaseAdv := by delta hardware binary32; rfl
@[simp] theorem hardware_tap (t w len : Nat) (width : F32) (sr : F64) (m : F32) :
    hardware.tap t w len width sr m = readTap t w len width sr m := by delta hardware binary32; rfl
@[simp] theorem hardware_interpolate : hardware.interpolate = interpolate := by delta hardware binary32; rfl

@[simp] theorem hardware_unwrittenBuf : hardware.unwrittenBuf = Config.bufUnwritten := by delta hardware binary32; rfl
@[simp] theorem hardware_unwrittenBlk : hardware.unwrittenBlk = Config.blkUnwritten := by delta hardware binary32; rfl

theorem Config.chMax_eq : Config.chMax = 2 := rfl
theorem Config.bufCap_eq : Config.bufCap = 9605 := rfl
theorem Config.blockCap_eq : Config.blockCap = 65536 := rfl

section
variable {V W : Type} {ch : Nat} (d : Design V W) (s : State V W ch)

/-- Raising a status is responding with data 0. -/
@[simp] theorem State.raise_eq (port : Port) (st : Status) : s.raise port st = s.respond port st 0 := rfl

/-! ## respond -/

@[simp] theorem State.respond_rateReg (port : Port) (st : Status) (v : BitVec 64) : (s.respond port st v).rateReg = s.rateReg := by cases port <;> rfl
@[simp] theorem State.respond_depthReg (port : Port) (st : Status) (v : BitVec 64) : (s.respond port st v).depthReg = s.depthReg := by cases port <;> rfl
@[simp] theorem State.respond_dirty (port : Port) (st : Status) (v : BitVec 64) : (s.respond port st v).dirty = s.dirty := by cases port <;> rfl
@[simp] theorem State.respond_freq (port : Port) (st : Status) (v : BitVec 64) : (s.respond port st v).freq = s.freq := by cases port <;> rfl
@[simp] theorem State.respond_width (port : Port) (st : Status) (v : BitVec 64) : (s.respond port st v).width = s.width := by cases port <;> rfl
@[simp] theorem State.respond_phase (port : Port) (st : Status) (v : BitVec 64) : (s.respond port st v).phase = s.phase := by cases port <;> rfl
@[simp] theorem State.respond_widx (port : Port) (st : Status) (v : BitVec 64) : (s.respond port st v).widx = s.widx := by cases port <;> rfl
@[simp] theorem State.respond_lReg (port : Port) (st : Status) (v : BitVec 64) : (s.respond port st v).lReg = s.lReg := by cases port <;> rfl
@[simp] theorem State.respond_sr (port : Port) (st : Status) (v : BitVec 64) : (s.respond port st v).sr = s.sr := by cases port <;> rfl
@[simp] theorem State.respond_invSr (port : Port) (st : Status) (v : BitVec 64) : (s.respond port st v).invSr = s.invSr := by cases port <;> rfl
@[simp] theorem State.respond_maxblk (port : Port) (st : Status) (v : BitVec 64) : (s.respond port st v).maxblk = s.maxblk := by cases port <;> rfl
@[simp] theorem State.respond_lc (port : Port) (st : Status) (v : BitVec 64) : (s.respond port st v).lc = s.lc := by cases port <;> rfl
@[simp] theorem State.respond_buf (port : Port) (st : Status) (v : BitVec 64) : (s.respond port st v).buf = s.buf := by cases port <;> rfl
@[simp] theorem State.respond_blk (port : Port) (st : Status) (v : BitVec 64) : (s.respond port st v).blk = s.blk := by cases port <;> rfl
@[simp] theorem State.respond_pending (port : Port) (st : Status) (v : BitVec 64) : (s.respond port st v).pending = s.pending := by cases port <;> rfl
@[simp] theorem State.respond_hostData (port : Port) (st : Status) (v : BitVec 64) : (s.respond port st v).hostData = s.hostData := by cases port <;> rfl
@[simp] theorem State.respond_draws (port : Port) (st : Status) (v : BitVec 64) : (s.respond port st v).draws = s.draws := by cases port <;> rfl

@[simp] theorem State.respond_host_hStatus (st : Status) (v : BitVec 64) : (s.respond .host st v).hStatus = st.code := rfl
@[simp] theorem State.respond_ctrl_hStatus (st : Status) (v : BitVec 64) : (s.respond .ctrl st v).hStatus = s.hStatus := rfl
@[simp] theorem State.respond_host_hRdata (st : Status) (v : BitVec 64) : (s.respond .host st v).hRdata = v := rfl
@[simp] theorem State.respond_ctrl_hRdata (st : Status) (v : BitVec 64) : (s.respond .ctrl st v).hRdata = s.hRdata := rfl
@[simp] theorem State.respond_host_cStatus (st : Status) (v : BitVec 64) : (s.respond .host st v).cStatus = s.cStatus := rfl
@[simp] theorem State.respond_ctrl_cStatus (st : Status) (v : BitVec 64) : (s.respond .ctrl st v).cStatus = st.code := rfl
@[simp] theorem State.respond_host_cRdata (st : Status) (v : BitVec 64) : (s.respond .host st v).cRdata = s.cRdata := rfl
@[simp] theorem State.respond_ctrl_cRdata (st : Status) (v : BitVec 64) : (s.respond .ctrl st v).cRdata = v := rfl

/-! ## REFRESH -/

@[simp] theorem State.refresh_rateReg : (s.refresh).rateReg = s.rateReg := rfl
@[simp] theorem State.refresh_depthReg : (s.refresh).depthReg = s.depthReg := rfl
@[simp] theorem State.refresh_dirty : (s.refresh).dirty = false := rfl
@[simp] theorem State.refresh_freq : (s.refresh).freq = s.rateReg := rfl
@[simp] theorem State.refresh_width : (s.refresh).width = s.depthReg := rfl
@[simp] theorem State.refresh_phase : (s.refresh).phase = s.phase := rfl
@[simp] theorem State.refresh_widx : (s.refresh).widx = s.widx := rfl
@[simp] theorem State.refresh_lReg : (s.refresh).lReg = s.lReg := rfl
@[simp] theorem State.refresh_sr : (s.refresh).sr = s.sr := rfl
@[simp] theorem State.refresh_invSr : (s.refresh).invSr = s.invSr := rfl
@[simp] theorem State.refresh_maxblk : (s.refresh).maxblk = s.maxblk := rfl
@[simp] theorem State.refresh_lc : (s.refresh).lc = s.lc := rfl
@[simp] theorem State.refresh_hStatus : (s.refresh).hStatus = s.hStatus := rfl
@[simp] theorem State.refresh_hRdata : (s.refresh).hRdata = s.hRdata := rfl
@[simp] theorem State.refresh_cStatus : (s.refresh).cStatus = s.cStatus := rfl
@[simp] theorem State.refresh_cRdata : (s.refresh).cRdata = s.cRdata := rfl
@[simp] theorem State.refresh_buf : (s.refresh).buf = s.buf := rfl
@[simp] theorem State.refresh_blk : (s.refresh).blk = s.blk := rfl
@[simp] theorem State.refresh_pending : (s.refresh).pending = s.pending := rfl
@[simp] theorem State.refresh_hostData : (s.refresh).hostData = s.hostData := rfl
@[simp] theorem State.refresh_draws : (s.refresh).draws = s.draws := rfl

/-! ## The entry REFRESH -/

@[simp] theorem State.refreshIfDirty_rateReg : s.refreshIfDirty.rateReg = s.rateReg := by
  unfold State.refreshIfDirty; split <;> rfl
@[simp] theorem State.refreshIfDirty_depthReg : s.refreshIfDirty.depthReg = s.depthReg := by
  unfold State.refreshIfDirty; split <;> rfl
@[simp] theorem State.refreshIfDirty_dirty : s.refreshIfDirty.dirty = false := by
  unfold State.refreshIfDirty; split <;> simp_all
@[simp] theorem State.refreshIfDirty_freq : s.refreshIfDirty.freq = if s.dirty then s.rateReg else s.freq := by
  unfold State.refreshIfDirty; split <;> rfl
@[simp] theorem State.refreshIfDirty_width : s.refreshIfDirty.width = if s.dirty then s.depthReg else s.width := by
  unfold State.refreshIfDirty; split <;> rfl
@[simp] theorem State.refreshIfDirty_phase : s.refreshIfDirty.phase = s.phase := by
  unfold State.refreshIfDirty; split <;> rfl
@[simp] theorem State.refreshIfDirty_widx : s.refreshIfDirty.widx = s.widx := by
  unfold State.refreshIfDirty; split <;> rfl
@[simp] theorem State.refreshIfDirty_lReg : s.refreshIfDirty.lReg = s.lReg := by
  unfold State.refreshIfDirty; split <;> rfl
@[simp] theorem State.refreshIfDirty_sr : s.refreshIfDirty.sr = s.sr := by
  unfold State.refreshIfDirty; split <;> rfl
@[simp] theorem State.refreshIfDirty_invSr : s.refreshIfDirty.invSr = s.invSr := by
  unfold State.refreshIfDirty; split <;> rfl
@[simp] theorem State.refreshIfDirty_maxblk : s.refreshIfDirty.maxblk = s.maxblk := by
  unfold State.refreshIfDirty; split <;> rfl
@[simp] theorem State.refreshIfDirty_lc : s.refreshIfDirty.lc = s.lc := by
  unfold State.refreshIfDirty; split <;> rfl
@[simp] theorem State.refreshIfDirty_hStatus : s.refreshIfDirty.hStatus = s.hStatus := by
  unfold State.refreshIfDirty; split <;> rfl
@[simp] theorem State.refreshIfDirty_hRdata : s.refreshIfDirty.hRdata = s.hRdata := by
  unfold State.refreshIfDirty; split <;> rfl
@[simp] theorem State.refreshIfDirty_cStatus : s.refreshIfDirty.cStatus = s.cStatus := by
  unfold State.refreshIfDirty; split <;> rfl
@[simp] theorem State.refreshIfDirty_cRdata : s.refreshIfDirty.cRdata = s.cRdata := by
  unfold State.refreshIfDirty; split <;> rfl
@[simp] theorem State.refreshIfDirty_buf : s.refreshIfDirty.buf = s.buf := by
  unfold State.refreshIfDirty; split <;> rfl
@[simp] theorem State.refreshIfDirty_blk : s.refreshIfDirty.blk = s.blk := by
  unfold State.refreshIfDirty; split <;> rfl
@[simp] theorem State.refreshIfDirty_pending : s.refreshIfDirty.pending = s.pending := by
  unfold State.refreshIfDirty; split <;> rfl
@[simp] theorem State.refreshIfDirty_hostData : s.refreshIfDirty.hostData = s.hostData := by
  unfold State.refreshIfDirty; split <;> rfl
@[simp] theorem State.refreshIfDirty_draws : s.refreshIfDirty.draws = s.draws := by
  unfold State.refreshIfDirty; split <;> rfl

/-! ## A store write -/

@[simp] theorem State.storeParam_freq (pid : ParamId) (v : F32) : (s.storeParam pid v).freq = s.freq := by cases pid <;> rfl
@[simp] theorem State.storeParam_width (pid : ParamId) (v : F32) : (s.storeParam pid v).width = s.width := by cases pid <;> rfl
@[simp] theorem State.storeParam_phase (pid : ParamId) (v : F32) : (s.storeParam pid v).phase = s.phase := by cases pid <;> rfl
@[simp] theorem State.storeParam_widx (pid : ParamId) (v : F32) : (s.storeParam pid v).widx = s.widx := by cases pid <;> rfl
@[simp] theorem State.storeParam_lReg (pid : ParamId) (v : F32) : (s.storeParam pid v).lReg = s.lReg := by cases pid <;> rfl
@[simp] theorem State.storeParam_sr (pid : ParamId) (v : F32) : (s.storeParam pid v).sr = s.sr := by cases pid <;> rfl
@[simp] theorem State.storeParam_invSr (pid : ParamId) (v : F32) : (s.storeParam pid v).invSr = s.invSr := by cases pid <;> rfl
@[simp] theorem State.storeParam_maxblk (pid : ParamId) (v : F32) : (s.storeParam pid v).maxblk = s.maxblk := by cases pid <;> rfl
@[simp] theorem State.storeParam_lc (pid : ParamId) (v : F32) : (s.storeParam pid v).lc = s.lc := by cases pid <;> rfl
@[simp] theorem State.storeParam_hStatus (pid : ParamId) (v : F32) : (s.storeParam pid v).hStatus = s.hStatus := by cases pid <;> rfl
@[simp] theorem State.storeParam_hRdata (pid : ParamId) (v : F32) : (s.storeParam pid v).hRdata = s.hRdata := by cases pid <;> rfl
@[simp] theorem State.storeParam_cStatus (pid : ParamId) (v : F32) : (s.storeParam pid v).cStatus = s.cStatus := by cases pid <;> rfl
@[simp] theorem State.storeParam_cRdata (pid : ParamId) (v : F32) : (s.storeParam pid v).cRdata = s.cRdata := by cases pid <;> rfl
@[simp] theorem State.storeParam_buf (pid : ParamId) (v : F32) : (s.storeParam pid v).buf = s.buf := by cases pid <;> rfl
@[simp] theorem State.storeParam_blk (pid : ParamId) (v : F32) : (s.storeParam pid v).blk = s.blk := by cases pid <;> rfl
@[simp] theorem State.storeParam_pending (pid : ParamId) (v : F32) : (s.storeParam pid v).pending = s.pending := by cases pid <;> rfl
@[simp] theorem State.storeParam_hostData (pid : ParamId) (v : F32) : (s.storeParam pid v).hostData = s.hostData := by cases pid <;> rfl
@[simp] theorem State.storeParam_draws (pid : ParamId) (v : F32) : (s.storeParam pid v).draws = s.draws := by cases pid <;> rfl

@[simp] theorem State.storeParam_rate_rateReg (v : F32) : (s.storeParam .rate v).rateReg = v := rfl
@[simp] theorem State.storeParam_depth_rateReg (v : F32) : (s.storeParam .depth v).rateReg = s.rateReg := rfl
@[simp] theorem State.storeParam_rate_depthReg (v : F32) : (s.storeParam .rate v).depthReg = s.depthReg := rfl
@[simp] theorem State.storeParam_depth_depthReg (v : F32) : (s.storeParam .depth v).depthReg = v := rfl
@[simp] theorem State.storeParam_dirty (pid : ParamId) (v : F32) : (s.storeParam pid v).dirty = true := by cases pid <;> rfl

/-! ## INIT's register writes -/

@[simp] theorem Design.initRegisters_rateReg : (d.initRegisters s).rateReg = d.params.rateDef := rfl
@[simp] theorem Design.initRegisters_depthReg : (d.initRegisters s).depthReg = d.params.depthDef := rfl
@[simp] theorem Design.initRegisters_dirty : (d.initRegisters s).dirty = false := rfl
@[simp] theorem Design.initRegisters_freq : (d.initRegisters s).freq = d.params.rateDef := rfl
@[simp] theorem Design.initRegisters_width : (d.initRegisters s).width = d.params.depthDef := rfl
@[simp] theorem Design.initRegisters_phase : (d.initRegisters s).phase = d.zero := rfl
@[simp] theorem Design.initRegisters_widx : (d.initRegisters s).widx = 0 := rfl
@[simp] theorem Design.initRegisters_lReg : (d.initRegisters s).lReg = 1 := rfl
@[simp] theorem Design.initRegisters_sr : (d.initRegisters s).sr = 0x0000000000000000#64 := rfl
@[simp] theorem Design.initRegisters_invSr : (d.initRegisters s).invSr = d.zeroRate := rfl
@[simp] theorem Design.initRegisters_maxblk : (d.initRegisters s).maxblk = 0 := rfl
@[simp] theorem Design.initRegisters_lc : (d.initRegisters s).lc = lcUninit := rfl
@[simp] theorem Design.initRegisters_hStatus : (d.initRegisters s).hStatus = s.hStatus := rfl
@[simp] theorem Design.initRegisters_hRdata : (d.initRegisters s).hRdata = s.hRdata := rfl
@[simp] theorem Design.initRegisters_cStatus : (d.initRegisters s).cStatus = s.cStatus := rfl
@[simp] theorem Design.initRegisters_cRdata : (d.initRegisters s).cRdata = s.cRdata := rfl
@[simp] theorem Design.initRegisters_buf : (d.initRegisters s).buf = s.buf := rfl
@[simp] theorem Design.initRegisters_blk : (d.initRegisters s).blk = s.blk := rfl
@[simp] theorem Design.initRegisters_pending : (d.initRegisters s).pending = s.pending := rfl
@[simp] theorem Design.initRegisters_hostData : (d.initRegisters s).hostData = s.hostData := rfl
@[simp] theorem Design.initRegisters_draws : (d.initRegisters s).draws = s.draws := rfl

/-! ## PREPARE's writes before ClearBuf -/

@[simp] theorem Design.setSampleRate_rateReg (m : Nat) (r : F64) : (d.setSampleRate s m r).rateReg = s.rateReg := rfl
@[simp] theorem Design.setSampleRate_depthReg (m : Nat) (r : F64) : (d.setSampleRate s m r).depthReg = s.depthReg := rfl
@[simp] theorem Design.setSampleRate_dirty (m : Nat) (r : F64) : (d.setSampleRate s m r).dirty = s.dirty := rfl
@[simp] theorem Design.setSampleRate_freq (m : Nat) (r : F64) : (d.setSampleRate s m r).freq = s.freq := rfl
@[simp] theorem Design.setSampleRate_width (m : Nat) (r : F64) : (d.setSampleRate s m r).width = s.width := rfl
@[simp] theorem Design.setSampleRate_phase (m : Nat) (r : F64) : (d.setSampleRate s m r).phase = s.phase := rfl
@[simp] theorem Design.setSampleRate_widx (m : Nat) (r : F64) : (d.setSampleRate s m r).widx = s.widx := rfl
@[simp] theorem Design.setSampleRate_lReg (m : Nat) (r : F64) : (d.setSampleRate s m r).lReg = d.lsize r := rfl
@[simp] theorem Design.setSampleRate_sr (m : Nat) (r : F64) : (d.setSampleRate s m r).sr = r := rfl
@[simp] theorem Design.setSampleRate_invSr (m : Nat) (r : F64) : (d.setSampleRate s m r).invSr = d.invSr r := rfl
@[simp] theorem Design.setSampleRate_maxblk (m : Nat) (r : F64) : (d.setSampleRate s m r).maxblk = m := rfl
@[simp] theorem Design.setSampleRate_lc (m : Nat) (r : F64) : (d.setSampleRate s m r).lc = s.lc := rfl
@[simp] theorem Design.setSampleRate_hStatus (m : Nat) (r : F64) : (d.setSampleRate s m r).hStatus = s.hStatus := rfl
@[simp] theorem Design.setSampleRate_hRdata (m : Nat) (r : F64) : (d.setSampleRate s m r).hRdata = s.hRdata := rfl
@[simp] theorem Design.setSampleRate_cStatus (m : Nat) (r : F64) : (d.setSampleRate s m r).cStatus = s.cStatus := rfl
@[simp] theorem Design.setSampleRate_cRdata (m : Nat) (r : F64) : (d.setSampleRate s m r).cRdata = s.cRdata := rfl
@[simp] theorem Design.setSampleRate_buf (m : Nat) (r : F64) : (d.setSampleRate s m r).buf = s.buf := rfl
@[simp] theorem Design.setSampleRate_blk (m : Nat) (r : F64) : (d.setSampleRate s m r).blk = s.blk := rfl
@[simp] theorem Design.setSampleRate_pending (m : Nat) (r : F64) : (d.setSampleRate s m r).pending = s.pending := rfl
@[simp] theorem Design.setSampleRate_hostData (m : Nat) (r : F64) : (d.setSampleRate s m r).hostData = s.hostData := rfl
@[simp] theorem Design.setSampleRate_draws (m : Nat) (r : F64) : (d.setSampleRate s m r).draws = s.draws := rfl

/-! ## PREPARE's writes after ClearBuf -/

@[simp] theorem Design.activate_rateReg : (d.activate s).rateReg = s.rateReg := rfl
@[simp] theorem Design.activate_depthReg : (d.activate s).depthReg = s.depthReg := rfl
@[simp] theorem Design.activate_dirty : (d.activate s).dirty = false := rfl
@[simp] theorem Design.activate_freq : (d.activate s).freq = s.rateReg := rfl
@[simp] theorem Design.activate_width : (d.activate s).width = s.depthReg := rfl
@[simp] theorem Design.activate_phase : (d.activate s).phase = d.zero := rfl
@[simp] theorem Design.activate_widx : (d.activate s).widx = 0 := rfl
@[simp] theorem Design.activate_lReg : (d.activate s).lReg = s.lReg := rfl
@[simp] theorem Design.activate_sr : (d.activate s).sr = s.sr := rfl
@[simp] theorem Design.activate_invSr : (d.activate s).invSr = s.invSr := rfl
@[simp] theorem Design.activate_maxblk : (d.activate s).maxblk = s.maxblk := rfl
@[simp] theorem Design.activate_lc : (d.activate s).lc = lcActive := rfl
@[simp] theorem Design.activate_hStatus : (d.activate s).hStatus = s.hStatus := rfl
@[simp] theorem Design.activate_hRdata : (d.activate s).hRdata = s.hRdata := rfl
@[simp] theorem Design.activate_cStatus : (d.activate s).cStatus = s.cStatus := rfl
@[simp] theorem Design.activate_cRdata : (d.activate s).cRdata = s.cRdata := rfl
@[simp] theorem Design.activate_buf : (d.activate s).buf = s.buf := rfl
@[simp] theorem Design.activate_blk : (d.activate s).blk = s.blk := rfl
@[simp] theorem Design.activate_pending : (d.activate s).pending = s.pending := rfl
@[simp] theorem Design.activate_hostData : (d.activate s).hostData = s.hostData := rfl
@[simp] theorem Design.activate_draws : (d.activate s).draws = s.draws := rfl

end

end Sys2Proof.Machine
end

