-- ==== Sys2Proof/Laws/Step.lean ====
section
/-! SUPPORT. What one step can do, said once: the inversion of `step`, and of each command that can stop. -/

namespace Sys2Proof.Machine

open Sys2Proof

/-- One packet: the command's own outcome, or one of the two decode errors on the port it arrived on. -/
theorem receive_next {s t : State} {port : Port} {p : Packet} (h : s.receive port p = .next t) :
    (∃ i, decode p = .ok i ∧ i.port = port ∧ exec i s = .next t) ∨
    (∃ e, decode p = .error e ∧ t = s.respond port .illegalCommand 0) ∨
    (∃ i, decode p = .ok i ∧ i.port ≠ port ∧ t = s.respond port .wrongPort 0) := by
  unfold State.receive deliver at h
  cases hd : decode p with
  | error e =>
    rw [hd] at h
    simp only at h
    cases h
    exact .inr (.inl ⟨e, rfl, rfl⟩)
  | ok i =>
    rw [hd] at h
    by_cases hp : i.port = port
    · simp only [hp, if_true] at h
      exact .inl ⟨i, rfl, hp, h⟩
    · simp only [hp, if_false] at h
      cases h
      exact .inr (.inr ⟨i, rfl, hp, rfl⟩)

/-- One step: idle, one packet, or one host action. -/
theorem step_next {s t : State} (h : step s = .next t) :
    (s.pending = [] ∧ t = s) ∨
    (∃ port p rest, s.pending = .packet port p :: rest ∧ State.receive { s with pending := rest } port p = .next t) ∨
    (∃ c n v rest, s.pending = .hostWrite c n v :: rest ∧ State.hostWrite hardware { s with pending := rest } c n v = .next t) ∨
    (∃ c n rest, s.pending = .hostRead c n :: rest ∧ State.hostRead hardware { s with pending := rest } c n = .next t) := by
  unfold step at h
  split at h
  · rename_i hp
    cases h
    exact .inl ⟨hp, rfl⟩
  · rename_i port p rest hp
    exact .inr (.inl ⟨port, p, rest, hp, h⟩)
  · rename_i c n v rest hp
    exact .inr (.inr (.inl ⟨c, n, v, rest, hp, h⟩))
  · rename_i c n rest hp
    exact .inr (.inr (.inr ⟨c, n, rest, hp, h⟩))

section
variable {V W : Type} {ch : Nat} {d : Design V W}

/-- PREPARE: all it can do when it answers a next state. -/
theorem prepare_next {m : Nat} {r : F64} {s t : State V W ch} (h : d.prepare m r s = .next t) :
    (badSampleRate r d.params = true ∧ t = s.respond .host .badSampleRate 0) ∨
    (badSampleRate r d.params = false ∧ d.lsize r ≤ d.params.bufCap ∧
      t = (d.activate
        { d.setSampleRate s m r with buf := s.buf.map (Bank.clear · (d.lsize r) d.zero) }).respond .host .ok 0) := by
  unfold Design.prepare at h
  split at h
  · rename_i hb
    cases h
    exact .inl ⟨hb, rfl⟩
  · rename_i hb
    have hb : badSampleRate r d.params = false := by simpa using hb
    cases hc : (d.setSampleRate s m r).clearBuf d with
    | error f =>
      rw [hc] at h
      cases h
    | ok u =>
      rw [hc] at h
      obtain ⟨hl, rfl⟩ := clearBuf_ok.1 hc
      cases h
      exact .inr ⟨hb, hl, rfl⟩

/-- RESET: all it can do when it answers a next state. -/
theorem reset_next {s t : State V W ch} (h : d.reset s = .next t) :
    s.lReg ≤ d.params.bufCap ∧
      t = State.respond { s with buf := s.buf.map (Bank.clear · s.lReg d.zero) } .host .ok 0 := by
  unfold Design.reset at h
  cases hc : s.clearBuf d with
  | error f =>
    rw [hc] at h
    cases h
  | ok u =>
    rw [hc] at h
    obtain ⟨hl, rfl⟩ := clearBuf_ok.1 hc
    cases h
    exact ⟨hl, rfl⟩

end

/-- PREPARE of this hardware: all it can do when it answers a next state. -/
theorem execPrepare_next {m : Nat} {r : F64} {s t : State} (h : execPrepare m r s = .next t) :
    (badSampleRate r = true ∧ t = s.respond .host .badSampleRate 0) ∨
    (badSampleRate r = false ∧ lsize r ≤ Config.bufCap ∧
      t = (hardware.activate
        { hardware.setSampleRate s m r with
          buf := s.buf.map (Bank.clear · (lsize r) 0x00000000#32) }).respond .host .ok 0) :=
  prepare_next h

/-- RESET of this hardware: all it can do when it answers a next state. -/
theorem execReset_next {s t : State} (h : execReset s = .next t) :
    s.lReg ≤ Config.bufCap ∧
      t = State.respond { s with buf := s.buf.map (Bank.clear · s.lReg 0x00000000#32) } .host .ok 0 :=
  reset_next h

/-- PROCESS_BLOCK of this hardware: all it can do when it answers a next state. -/
theorem execProcessBlock_next {nin nout nsamp : Nat} {s t : State} (h : execProcessBlock nin nout nsamp s = .next t) :
    (s.lc = lcUninit ∧ t = s.respond .host .notPrepared 0) ∨
    (s.lc ≠ lcUninit ∧ outOfBounds nin nout nsamp = true ∧ t = s.respond .host .bounds 0) ∨
    (s.lc ≠ lcUninit ∧ outOfBounds nin nout nsamp = false ∧ hardware.blockBody nin nout nsamp s.refreshIfDirty = .ok t) :=
  processBlock_next h

/-- DL_READ of this hardware: all it can do when it answers a sample. -/
theorem hardware_dlRead_ok {t c w len : Nat} {width m y : F32} {sr : F64} {b : Bank} :
    hardware.dlRead t c width sr len b w m = .ok y ↔
      ∃ i0, (readPosition w len (readOffset (currentDelay t width m) sr)).floorNat? = some i0 ∧
        (i0 < len ∧ i0 < Config.bufCap) ∧ ((i0 + 1) % len < len ∧ (i0 + 1) % len < Config.bufCap) ∧
        y = interpolate t (readFraction t (readPosition w len (readOffset (currentDelay t width m) sr)) i0)
          ((b.read? i0).getD (Config.bufUnwritten c i0))
          ((b.read? ((i0 + 1) % len)).getD (Config.bufUnwritten c ((i0 + 1) % len))) := by
  rw [dlRead_ok]
  simp only [hardware_tap, hardware_interpolate, hardware_params, hardware_unwrittenBuf, readTap, Option.map_eq_some_iff,
    Prod.mk.injEq]
  constructor
  · rintro ⟨_, _, ⟨i0, hi, rfl, rfl⟩, h⟩
    exact ⟨i0, hi, h⟩
  · rintro ⟨i0, hi, h⟩
    exact ⟨i0, _, ⟨i0, hi, rfl, rfl⟩, h⟩

end Sys2Proof.Machine
end

