-- ==== Sys2Proof/Tests/Slice0.lean ====
section
/-! SUPPORT. The model's own tests, and a witness for the hypotheses of each statement that has any. Expected results are those of
spec/95_test_vectors.md, spec/30_encoding.md R129 or hand calculation from a rule, as each comment says. -/

namespace Sys2Proof.Machine.Tests

open Sys2Proof Sys2Proof.Machine

/-- The state after a transition, none when it stopped. -/
def after : Host.Outcome State Fault Refusal → Option State
  | .next s => some s
  | _ => none

/-! ## WellFormed refuses an operand that does not fit its field (R113, R114, R127) -/

theorem test_wellFormed_maxblk : (Instr.prepare (2 ^ 24) 0).wellFormed = false := by decide
theorem test_wellFormed_maxblk_greatest : (Instr.prepare (2 ^ 24 - 1) 0).wellFormed = true := by decide
theorem test_wellFormed_nin : (Instr.processBlock 16 0 0).wellFormed = false := by decide
theorem test_wellFormed_nout : (Instr.processBlock 0 16 0).wellFormed = false := by decide
theorem test_wellFormed_nsamp : (Instr.processBlock 0 0 (2 ^ 20)).wellFormed = false := by decide
theorem test_wellFormed_block_greatest : (Instr.processBlock 15 15 (2 ^ 20 - 1)).wellFormed = true := by decide

/-! ## Decoding: the words of 95_test_vectors.md L2.1, and every bit of a packet written out once -/

theorem test_decode_init : (decode ⟨0x10000000#32, 0⟩).toOption = some .init := by decide
theorem test_decode_prepare :
    (decode ⟨0x20000200#32, 0x40E5888000000000#64⟩).toOption = some (.prepare 512 0x40E5888000000000#64) := by decide
theorem test_decode_prepare_bits :
    (decode ⟨0b00100000100000000000000000000001#32, 0x8000000000000001#64⟩).toOption =
      some (.prepare 0x800001 0x8000000000000001#64) := by decide
theorem test_decode_processBlock : (decode ⟨0x32300004#32, 0⟩).toOption = some (.processBlock 2 3 4) := by decide
theorem test_decode_processBlock_bits :
    (decode ⟨0b00111000010000000000000000000010#32, 0⟩).toOption = some (.processBlock 8 4 2) := by decide
theorem test_decode_reset : (decode ⟨0x40000000#32, 0x123456789ABCDEF0#64⟩).toOption = some .reset := by decide
theorem test_decode_setParam_rate :
    (decode ⟨0x50000000#32, 0xDEADBEEF40000000#64⟩).toOption = some (.setParam .rate 0x40000000#32) := by decide
theorem test_decode_setParam_depth :
    (decode ⟨0x50000001#32, 0x000000003CF5C28F#64⟩).toOption = some (.setParam .depth 0x3CF5C28F#32) := by decide
theorem test_decode_readParams : (decode ⟨0x60000000#32, 0xFFFFFFFFFFFFFFFF#64⟩).toOption = some .readParams := by decide
theorem test_decode_loadParams :
    (decode ⟨0x70000001#32, 0x3CA3D70A40400000#64⟩).toOption =
      some (.loadParams true 0x40400000#32 0x3CA3D70A#32) := by decide

/-- L2.1's illegal and wrong-port rows. -/
theorem test_deliver_illegal :
    deliver .host ⟨0x00000000#32, 0⟩ = .illegal .reservedOpcode ∧ deliver .ctrl ⟨0x80000000#32, 0⟩ = .illegal .reservedOpcode ∧
    deliver .host ⟨0xF0000000#32, 0⟩ = .illegal .reservedOpcode ∧ deliver .host ⟨0x10000001#32, 0⟩ = .illegal .reservedBits ∧
    deliver .host ⟨0x21000040#32, 0x408F400000000000#64⟩ = .illegal .reservedBits ∧
    deliver .ctrl ⟨0x50000002#32, 0x40000000#64⟩ = .illegal .reservedBits ∧
    deliver .host ⟨0x5000000F#32, 0⟩ = .illegal .reservedBits := by decide
theorem test_deliver_wrongPort :
    deliver .host ⟨0x50000000#32, 0x40000000#64⟩ = .wrongPort (.setParam .rate 0x40000000#32) ∧
    deliver .ctrl ⟨0x10000000#32, 0⟩ = .wrongPort .init := by decide

/-- The encoder on the same words (R129 and L2.1). -/
theorem test_encode :
    encode .init = ⟨0x10000000#32, 0⟩ ∧ encode (.prepare 16 0x408F400000000000#64) = ⟨0x20000010#32, 0x408F400000000000#64⟩ ∧
    encode (.processBlock 1 2 4) = ⟨0x31200004#32, 0⟩ ∧ encode .reset = ⟨0x40000000#32, 0⟩ ∧
    encode (.setParam .rate 0x40000000#32) = ⟨0x50000000#32, 0x0000000040000000#64⟩ ∧
    encode (.setParam .depth 0x3CF5C28F#32) = ⟨0x50000001#32, 0x000000003CF5C28F#64⟩ ∧
    encode .readParams = ⟨0x60000000#32, 0⟩ ∧
    encode (.loadParams true 0x40400000#32 0x3CA3D70A#32) = ⟨0x70000001#32, 0x3CA3D70A40400000#64⟩ := by decide

/-- The opcode table's numbering: bit 0 is CW[0], PL is zero. -/
theorem test_decodeTableWord :
    decodeTableWord 32 0x10000000 = some .init ∧ decodeTableWord 32 0x20000200 = some (.prepare 512 0) ∧
    decodeTableWord 32 0x31100008 = some (.processBlock 1 1 8) ∧ decodeTableWord 32 0x40000000 = some .reset ∧
    decodeTableWord 32 0x50000001 = some (.setParam .depth 0) ∧ decodeTableWord 32 0x60000000 = some .readParams ∧
    decodeTableWord 32 0x70000001 = some (.loadParams true 0 0) ∧ decodeTableWord 32 0x80000000 = none := by decide

/-- A transport of the wrong length carries no packet (R110). -/
theorem test_ofBytes_length : Packet.ofBytes? (List.replicate 11 0) = none := by decide

/-! ## The assembler (R127, R128) -/

theorem test_assemble_pseudo :
    (Assembler.assemble "SET_RATE 2.0".toList).toOption = some [.packet .ctrl ⟨0x50000000#32, 0x0000000040000000#64⟩] := by
  decide +kernel
/-- The prefix of the other agent's port names the port of the packet (log 27). -/
theorem test_assemble_port_prefix :
    (Assembler.assemble "ctrl: INIT".toList).toOption = some [.packet .ctrl ⟨0x10000000#32, 0⟩] := by decide +kernel
theorem test_assemble_hostwrite :
    (Assembler.assemble "HOSTWRITE 0, 3.., [1, -0.0]".toList).toOption =
      some [.hostWrite 0 3 0x3F800000#32, .hostWrite 0 4 0x80000000#32] := by decide +kernel
theorem test_assemble_refuses_field :
    (Assembler.assemble "PROCESS_BLOCK 16, 1, 8".toList).toOption = none := by decide +kernel

/-- A program line of 95_test_vectors.md L3.3, with its comment (log 28). -/
theorem test_assemble_program_line :
    (Assembler.assemble "        ctrl: SET_PARAM depth, 0x3D4CCCCD ; CW 0x50000001 PL 0x000000003D4CCCCD".toList).toOption =
      some [.packet .ctrl ⟨0x50000001#32, 0x000000003D4CCCCD#64⟩] := by decide +kernel

/-- A port prefix on a host action has no effect (log 24). -/
theorem test_assemble_host_action_prefix :
    (Assembler.assemble "ctrl: HOSTREAD 1, 2".toList).toOption = some [.hostRead 1 2] := by decide +kernel

/-! ## The parameters of R7 -/

theorem test_params_legal : legalParams Config.params := by unfold legalParams; decide +kernel

/-! ## Arithmetic (R13; 95_test_vectors.md L2.3, L2.4) -/

/-- Ties to even on subnormals: 3·2^(−149) halved is 2·2^(−149) (C16); the smallest subnormal halved is +0.0. -/
theorem test_rnd32_subnormal_tie :
    rnd32 0 ((F32.val 0x00000003#32).mul (F32.val 0x3F000000#32)) = 0x00000002#32 ∧
    rnd32 0 ((F32.val 0x00000001#32).mul (F32.val 0x3F000000#32)) = 0x00000000#32 := by decide +kernel
/-- Overflow to infinity, and the greatest finite value doubled and halved. -/
theorem test_rnd32_overflow :
    rnd32 0 ((F32.val 0x7F7FFFFF#32).mul (F32.val 0x40000000#32)) = 0x7F800000#32 ∧
    rnd32 0 ((F32.val 0xFF7FFFFF#32).add (F32.val 0xFF7FFFFF#32)) = 0xFF800000#32 := by decide +kernel
/-- INV_SR for 1000 and 44100 Hz (L2.3). -/
theorem test_invSr :
    rnd64 (F64.val 0x408F400000000000#64).recip = 0x3F50624DD2F1A9FC#64 ∧
    rnd64 (F64.val 0x40E5888000000000#64).recip = 0x3EF7C6F8C751F177#64 := by decide +kernel
/-- The five PHASE_ADV corner cases of L2.3. -/
theorem test_phaseAdv_corners :
    phaseAdv 0 0x41400000#32 0x3F50624DD2F1A9FC#64 0x3F7FFFFF#32 = 0x3C449B80#32 ∧
    phaseAdv 0 0x41400000#32 0x3F50624DD2F1A9FC#64 0x3F7CED91#32 = 0x00000000#32 ∧
    phaseAdv 0 0x3F800000#32 0x3F50624DD2F1A9FC#64 0x3F000000#32 = 0x3F004189#32 ∧
    phaseAdv 0 0x3F800000#32 0x3ED5D867C3ECE2A5#64 0x3F7FFFFF#32 = 0x36AC0000#32 ∧
    phaseAdv 0 0x40C00000#32 0x3EF7C6F8C751F177#64 0x00000000#32 = 0x390EA9D5#32 := by decide +kernel
/-- Interpolator corners of L2.4: equal taps, signed zeros, the wrap of fr, cancellation, C16. -/
theorem test_interpolate_corners :
    interpolate 0 0x3EAAAAAB#32 0x3F800000#32 0x3F800000#32 = 0x3F800000#32 ∧
    interpolate 0 0x00000000#32 0x80000000#32 0x00000000#32 = 0x00000000#32 ∧
    interpolate 0 0x00000000#32 0x80000000#32 0x80000000#32 = 0x80000000#32 ∧
    interpolate 0 0x3F800000#32 0xC0A00000#32 0x80000000#32 = 0x80000000#32 ∧
    interpolate 0 0x3F800000#32 0x40000000#32 0x40600000#32 = 0x40600000#32 ∧
    interpolate 0 0x3F000000#32 0x3F800000#32 0xBF800000#32 = 0x00000000#32 ∧
    interpolate 0 0x3F000000#32 0x7F7FFFFF#32 0x7F7FFFFF#32 = 0x7F7FFFFF#32 ∧
    interpolate 0 0x3F000000#32 0x00000003#32 0x00000003#32 = 0x00000004#32 := by decide +kernel

/-- BUF[c][i] = i, as the DL_READ table of L2.4 has it. -/
def rampBank : Bank := (List.range 55).map fun i => (i, rnd32 0 (.ofInt i))

/-- Four rows of L2.4's DL_READ table: the first, the wrap of i1, m = 0, the greatest depth. -/
theorem test_dlRead_rows :
    (hardware.dlRead 0 0 0x3C23D70A#32 0x408F400000000000#64 55 rampBank 0 0x3F000000#32).toOption = some 0x423C0000#32 ∧
    (hardware.dlRead 0 0 0x3C23D70A#32 0x408F400000000000#64 55 rampBank 7 0x3F000000#32).toOption = some 0x4257FFFE#32 ∧
    (hardware.dlRead 0 0 0x3C23D70A#32 0x408F400000000000#64 55 rampBank 2 0x00000000#32).toOption = some 0x42580000#32 ∧
    (hardware.dlRead 0 0 0x3D4CCCCD#32 0x408F400000000000#64 55 rampBank 54 0x3F800000#32).toOption = some 0x3F7FFFF4#32 := by
  decide +kernel
/-- Program P4 at n = 8: the impulse in BUF[0][0] is tap i1. -/
theorem test_dlRead_impulse :
    (hardware.dlRead 8 0 0x3C23D70A#32 0x408F400000000000#64 55 (((Bank.clear [] 55 0).write 0 0x3F800000#32)) 8 0x3F066E68#32).toOption =
      some 0x3F3FAFF5#32 := by decide +kernel
/-- The DL_WRITE vectors of L2.4: the index wraps, and a NaN keeps its payload. -/
theorem test_dlWrite_vectors :
    ((hardware.dlWrite 55 [] 54 0x40E00000#32).toOption.bind (Bank.read? · 54)) = some 0x40E00000#32 ∧ nextIndex 55 54 = 0 ∧
    ((hardware.dlWrite 55 [] 3 0x7FC00001#32).toOption.bind (Bank.read? · 3)) = some 0x7FC00001#32 ∧ nextIndex 55 3 = 4 := by decide

/-! ## LFO_FN at the quarter points (L2.3), whatever the open choice is -/

theorem lfoFn_quarter {p m : F32} (ha : ∀ v, Config.LfoAllowed p v → v = m) (hf : lfoFallback p = m) : lfoFn p = m := by
  unfold lfoFn
  cases Config.lfoPick p with
  | none => exact hf
  | some v => exact ha v.1 v.2

theorem test_lfo_at_zero : lfoFn 0x00000000#32 = 0x3F000000#32 :=
  lfoFn_quarter (fun _ h => (h (by decide)).2.1 rfl) (by decide +kernel)
theorem test_lfo_at_three_quarters : lfoFn 0x3F400000#32 = 0x00000000#32 :=
  lfoFn_quarter (fun _ h => (h (by decide)).2.2.2.2.1 rfl) (by decide +kernel)

/-! ## States -/

/-- After `PREPARE 1000.0, 16` from power-on (L2.6), with one silent input word written on each channel. -/
def ready : State :=
  { State.reset with
    sr := 0x408F400000000000#64, invSr := 0x3F50624DD2F1A9FC#64, lReg := 55, maxblk := 16, lc := lcActive
    buf := Vector.replicate Config.chMax (Bank.clear [] 55 0)
    blk := Vector.replicate Config.chMax [(0, 0x00000000#32)] }

/-- `ready` with a rate written by CTRL and not yet refreshed. -/
def readyDirty : State := { ready with rateReg := 0x41400000#32, dirty := true }

/-! ## Each command once or twice -/

/-- L2.6: INIT after a history. -/
theorem test_init : (after (exec .init readyDirty)).map (fun s => (s.rateReg, s.freq, s.lReg, s.lc, s.dirty)) =
    some (0x40C00000#32, 0x40C00000#32, 1, 0#2, false) := by decide +kernel
/-- L2.6: PREPARE 1000.0, 16. -/
theorem test_prepare : (after (exec (.prepare 16 0x408F400000000000#64) readyDirty)).map
      (fun s => (s.lReg, s.invSr, s.lc, s.freq, s.bufWord? 1 54)) =
    some (55, 0x3F50624DD2F1A9FC#64, 2#2, 0x41400000#32, some 0#32) := by decide +kernel
/-- L2.6: PREPARE 999.0 and PREPARE NaN. -/
theorem test_prepare_refuses :
    (after (exec (.prepare 8 0x408F380000000000#64) State.reset)).map (fun s => (s.hStatus, s.lc)) = some (0x12#8, 0#2) ∧
    (after (exec (.prepare 8 0x7FF8000000000000#64) State.reset)).map (·.hStatus) = some 0x12#8 := by decide +kernel
/-- L2.6: RESET in UNINIT clears BUF[c][0]. -/
theorem test_reset : (after (exec .reset State.reset)).map (fun s => (s.bufWord? 0 0, s.bufWord? 1 0, s.bufWord? 0 1)) =
    some (some 0#32, some 0#32, none) := by decide +kernel
/-- L2.5: PROCESS_BLOCK 15, 15, 4 before PREPARE, and 2, 3, 4 after it. -/
theorem test_processBlock_guards :
    (after (exec (.processBlock 15 15 4) State.reset)).map (·.hStatus) = some 0x01#8 ∧
    (after (exec (.processBlock 2 3 4) readyDirty)).map (fun s => (s.hStatus, s.dirty)) = some (0x13#8, true) := by decide +kernel
/-- L2.5: PROCESS_BLOCK 0, 2, 1 refreshes, clears both channels and leaves PHASE and WIDX. -/
theorem test_processBlock_clears :
    (after (exec (.processBlock 0 2 1) readyDirty)).map (fun s => (s.freq, s.dirty, s.blkWord? 1 0, s.widx)) =
      some (0x41400000#32, false, some 0#32, 0) := by decide +kernel
/-- L2.2: SET_PARAM rate, 20.0 and depth one ulp below DEPTH_MIN. -/
theorem test_setParam_clamps :
    (after (exec (.setParam .rate 0x41A00000#32) State.reset)).map (fun s => (s.rateReg, s.dirty, s.cStatus)) =
      some (0x41400000#32, true, 0x02#8) ∧
    (after (exec (.setParam .depth 0x3C23D709#32) State.reset)).map (fun s => (s.depthReg, s.cStatus)) =
      some (0x3C23D70A#32, 0x02#8) := by decide
/-- L2.2: a bound is stored as it is; a NaN is refused. -/
theorem test_setParam_bound_and_nan :
    (after (exec (.setParam .depth 0x3D4CCCCD#32) State.reset)).map (fun s => (s.depthReg, s.cStatus)) =
      some (0x3D4CCCCD#32, 0x00#8) ∧
    (after (exec (.setParam .depth 0xFFC00000#32) State.reset)).map (fun s => (s.depthReg, s.dirty, s.cStatus)) =
      some (0x3C23D70A#32, false, 0x14#8) := by decide
/-- L2.2: READ_PARAMS after power-on. -/
theorem test_readParams : (after (exec .readParams State.reset)).map (·.cRdata) = some 0x3C23D70A40C00000#64 := by decide
/-- L2.2: LOAD_PARAMS with a rate below its range, and with a NaN. -/
theorem test_loadParams :
    (after (exec (.loadParams true 0x3F000000#32 0x3CA3D70A#32) State.reset)).map (fun s => (s.rateReg, s.depthReg, s.cStatus)) =
      some (0x3F800000#32, 0x3CA3D70A#32, 0x02#8) ∧
    (after (exec (.loadParams true 0x40400000#32 0x7FC00000#32) State.reset)).map (fun s => (s.rateReg, s.dirty, s.cStatus)) =
      some (0x40C00000#32, false, 0x04#8) := by decide
/-- HostRead of a word that nothing has written changes nothing but the host's own data, so it reads the same again (R87). -/
theorem test_hostRead_unwritten (s : State) (h : s.blkWord? 1 2 = none) :
    s.hostRead hardware 1 2 = .next { s with hostData := Config.blkUnwritten 1 2 } := by
  unfold State.hostRead
  rw [h]
  rfl
/-- A table word runs as the first step after reset: LOAD_PARAMS with zero payload clamps both values. -/
theorem test_step_withFetchWord :
    (after (step (State.reset.withFetchWord 32 0x70000001))).map (fun s => (s.rateReg, s.depthReg, s.cStatus)) =
      some (0x3F800000#32, 0x3C23D70A#32, 0x02#8) := by decide +kernel
/-- L2.1: SET_PARAM on the HOST port. -/
theorem test_step_wrongPort :
    (after (step { State.reset with pending := [.packet .host ⟨0x50000000#32, 0x40000000#64⟩] })).map
      (fun s => (s.hStatus, s.rateReg)) = some (0x11#8, 0x40C00000#32) := by decide +kernel

/-! ## Witnesses: sound states -/

theorem test_ready_sound : ready.Inv := by constructor <;> decide +kernel
theorem test_readyDirty_sound : readyDirty.Inv := by constructor <;> decide +kernel

/-! ## Witnesses: a block that runs

The inputs are silent, so DL_READ answers +0.0 at LFO_FN(0) = 0.5. -/

/-- What one silent sample leaves in a lane of `ready`, with the frequency of the block. -/
def silentLane (freq : F32) : Lane F32 :=
  { buf := (Bank.clear [] 55 0).write 0 0, blk := Bank.write [(0, 0)] 0 0,
    p := phaseAdv 0 freq 0x3F50624DD2F1A9FC#64 0, w := nextIndex 55 0 }

theorem toOption_some {r : Except Fault F32} {y : F32} (h : r.toOption = some y) : r = .ok y := by
  cases r with
  | error f => cases h
  | ok x => exact congrArg Except.ok (Option.some.inj h)

theorem silent_read (c : Nat) (freq : F32) (hc : c < 2) :
    hardware.sampleStep ⟨freq, 0x3C23D70A#32, 0x408F400000000000#64, 0x3F50624DD2F1A9FC#64, 55, 0⟩ c 0
      { buf := Bank.clear [] 55 0, blk := [(0, 0)], p := 0, w := 0 } = .ok (silentLane freq) := by
  refine sampleStep_ok.2 ⟨0, 0, ⟨by decide, rfl⟩, ?_, ⟨(by decide : (0 : Nat) < 55), (by decide : (0 : Nat) < Config.bufCap)⟩, rfl⟩
  show hardware.dlRead 0 c 0x3C23D70A#32 0x408F400000000000#64 55 (Bank.clear [] 55 0) 0 (lfoFn 0x00000000#32) = .ok 0
  rw [test_lfo_at_zero]
  have h : ∀ c < 2, (hardware.dlRead 0 c 0x3C23D70A#32 0x408F400000000000#64 55 (Bank.clear [] 55 0) 0 0x3F000000#32).toOption = some 0 := by
    decide +kernel
  exact toOption_some (h c hc)

theorem silent_lane (c : Nat) (freq : F32) (hc : c < 2) :
    hardware.runSamples ⟨freq, 0x3C23D70A#32, 0x408F400000000000#64, 0x3F50624DD2F1A9FC#64, 55, 0⟩ c 1 0
      { buf := Bank.clear [] 55 0, blk := [(0, 0)], p := 0, w := 0 } = .ok (silentLane freq) :=
  runSamples_succ_ok.2 ⟨_, silent_read c freq hc, rfl⟩

/-- The body of a block of one sample on both channels runs from `ready`. -/
theorem body_runs : ∃ t, hardware.blockBody 2 2 1 ready = .ok t :=
  ⟨_, blockBody_ok.2 ⟨_, runChannels_succ_ok.2 ⟨by decide, _, silent_lane 0 _ (by decide),
    runChannels_succ_ok.2 ⟨by decide, _, silent_lane 1 _ (by decide), rfl⟩⟩, rfl⟩⟩

theorem test_block_runs : ∃ t, exec (.processBlock 2 2 1) ready = .next t :=
  body_runs.imp fun _ h => outcomeOf_next.2 h

/-- A block of one sample on one channel of two outputs runs from `ready`. -/
theorem test_block_with_extra_output_runs : ∃ t, exec (.processBlock 1 2 1) ready = .next t := by
  have h : ∃ t, hardware.blockBody 1 2 1 ready = .ok t :=
    ⟨_, blockBody_ok.2 ⟨_, runChannels_succ_ok.2 ⟨by decide, _, silent_lane 0 _ (by decide), rfl⟩, rfl⟩⟩
  exact h.imp fun _ h => outcomeOf_next.2 h

/-- The same with DIRTY set: the block runs at the refreshed frequency. -/
theorem test_dirty_block_runs : ∃ t, exec (.processBlock 1 1 1) readyDirty = .next t := by
  have h : ∃ t, hardware.blockBody 1 1 1 readyDirty.refreshIfDirty = .ok t :=
    ⟨_, blockBody_ok.2 ⟨_, runChannels_succ_ok.2 ⟨by decide, _, silent_lane 0 _ (by decide), rfl⟩, rfl⟩⟩
  exact h.imp fun _ h => outcomeOf_next.2 h

/-- A state whose phase stands still, with two written inputs on each channel and DIRTY set: a block of two samples runs at
LFO_FN(0) = 0.5 throughout. -/
def readyStill : State :=
  { readyDirty with invSr := 0, blk := Vector.replicate Config.chMax [(0, 0x00000000#32), (1, 0x3F800000#32)] }

theorem still_lane (c : Nat) (hc : c < 2) :
    ∃ l, hardware.runSamples ⟨0x41400000#32, 0x3C23D70A#32, 0x408F400000000000#64, 0, 55, 0⟩ c 2 0
      { buf := Bank.clear [] 55 0, blk := [(0, 0x00000000#32), (1, 0x3F800000#32)], p := 0, w := 0 } = .ok l := by
  have hp : hardware.phaseAdv 0 0x41400000#32 0 0 = 0x00000000#32 := by decide +kernel
  have h : ∀ c < 2,
      (hardware.dlRead 0 c 0x3C23D70A#32 0x408F400000000000#64 55 (Bank.clear [] 55 0) 0 0x3F000000#32).toOption = some 0 ∧
      (hardware.dlRead 1 c 0x3C23D70A#32 0x408F400000000000#64 55 ((Bank.clear [] 55 0).write 0 0) 1 0x3F000000#32).toOption
        = some 0 := by decide +kernel
  have h0 : ∃ p, p = hardware.phaseAdv 0 0x41400000#32 0 0 ∧
      hardware.sampleStep ⟨0x41400000#32, 0x3C23D70A#32, 0x408F400000000000#64, 0, 55, 0⟩ c 0
        { buf := Bank.clear [] 55 0, blk := [(0, 0x00000000#32), (1, 0x3F800000#32)], p := 0, w := 0 } =
        .ok { buf := (Bank.clear [] 55 0).write 0 0, blk := [(0, 0x00000000#32), (1, 0x3F800000#32)], p := p, w := 1 } := by
    refine ⟨_, rfl, sampleStep_ok.2
      ⟨0, 0, ⟨by decide, rfl⟩, ?_, ⟨(by decide : (0 : Nat) < 55), (by decide : (0 : Nat) < Config.bufCap)⟩, rfl⟩⟩
    show hardware.dlRead 0 c 0x3C23D70A#32 0x408F400000000000#64 55 (Bank.clear [] 55 0) 0 (lfoFn 0x00000000#32) = .ok 0
    rw [test_lfo_at_zero]
    exact toOption_some (h c hc).1
  obtain ⟨p, hq, h0⟩ := h0
  rw [hp] at hq
  refine ⟨_, runSamples_succ_ok.2 ⟨_, h0, runSamples_succ_ok.2 ⟨_, sampleStep_ok.2
    ⟨0x3F800000#32, 0, ⟨by decide, rfl⟩, ?_, ⟨(by decide : (1 : Nat) < 55), (by decide : (1 : Nat) < Config.bufCap)⟩, rfl⟩, rfl⟩⟩⟩
  show hardware.dlRead 1 c 0x3C23D70A#32 0x408F400000000000#64 55 ((Bank.clear [] 55 0).write 0 0) 1 (lfoFn p) = .ok 0
  rw [hq, test_lfo_at_zero]
  exact toOption_some (h c hc).2

theorem test_two_samples_run : ∃ t, exec (.processBlock 2 2 2) readyStill = .next t := by
  obtain ⟨_, h0⟩ := still_lane 0 (by decide)
  obtain ⟨_, h1⟩ := still_lane 1 (by decide)
  have h : ∃ t, hardware.blockBody 2 2 2 readyStill.refreshIfDirty = .ok t :=
    ⟨_, blockBody_ok.2 ⟨_, runChannels_succ_ok.2 ⟨by decide, _, h0, runChannels_succ_ok.2 ⟨by decide, _, h1, rfl⟩⟩, rfl⟩⟩
  exact h.imp fun _ h => outcomeOf_next.2 h

/-! ## Witnesses: the hypotheses of each statement of Obligations.lean, met together

`witness_<Name>` (and `witness_<Name>_blocks`) belongs to `Obligations.<Name>`. Where a statement has clauses over one input, each has a witness at a boundary of
its range. A statement without hypotheses has none here; the hypothesis of `DecodeOfEncode` and both of `AssembledCommandDecodes` are
met by the WellFormed tests above. -/

/-- Power-on state with one event to come. -/
def coming (e : Event) : State := { State.reset with pending := [e] }

theorem witness_EncodeOfDecode : decode ⟨0x3FFFFFFF#32, 5⟩ = .ok (.processBlock 15 15 0xFFFFF) := rfl

theorem witness_ReservedOpcodeIsIllegal :
    (coming (.packet .host ⟨0x0FFFFFFF#32, 0⟩)).pending = .packet .host ⟨0x0FFFFFFF#32, 0⟩ :: [] ∧
    (0x0FFFFFFF#32).extractLsb' 28 4 = 0x0#4 ∧
    (coming (.packet .ctrl ⟨0x80000000#32, 0⟩)).pending = .packet .ctrl ⟨0x80000000#32, 0⟩ :: [] ∧
    0x8#4 ≤ (0x80000000#32).extractLsb' 28 4 ∧ 0x8#4 ≤ (0xFFFFFFFF#32).extractLsb' 28 4 := by decide

/-- The lowest and the highest reserved bit of each format. -/
theorem witness_ReservedBitsAreIllegal :
    (coming (.packet .host ⟨0x10000001#32, 0⟩)).pending = .packet .host ⟨0x10000001#32, 0⟩ :: [] ∧
    (0x10000001#32).extractLsb' 0 28 ≠ 0#28 ∧ (0x48000000#32).extractLsb' 0 28 ≠ 0#28 ∧
    (0x21000000#32).extractLsb' 24 4 ≠ 0#4 ∧ (0x28000000#32).extractLsb' 24 4 ≠ 0#4 ∧
    (0x50000002#32).extractLsb' 1 27 ≠ 0#27 ∧ (0x78000000#32).extractLsb' 1 27 ≠ 0#27 := by decide

theorem witness_WrongPortIsReported :
    (coming (.packet .ctrl ⟨0x10000000#32, 0⟩)).pending = .packet .ctrl ⟨0x10000000#32, 0⟩ :: [] ∧
    decode ⟨0x10000000#32, 0⟩ = .ok .init ∧ Instr.init.port ≠ .ctrl := ⟨rfl, rfl, by decide⟩

theorem witness_IgnoredPayloadBits :
    (0x10000000#32).extractLsb' 28 4 ∈ [0x1#4, 0x3#4, 0x4#4, 0x6#4] ∧
    (0x50000000#32).extractLsb' 28 4 = 0x5#4 ∧
    (0x0000000040000000#64).extractLsb' 0 32 = (0xFFFFFFFF40000000#64).extractLsb' 0 32 := by decide

theorem witness_StepRunsDecodedCommand :
    decode ⟨0x60000000#32, 0⟩ = .ok .readParams ∧
    (coming (.packet .ctrl ⟨0x60000000#32, 0⟩)).pending = .packet Instr.readParams.port ⟨0x60000000#32, 0⟩ :: [] := ⟨rfl, rfl⟩

/-- The last word of BLK written and unwritten, and the first places outside it in each direction. -/
theorem witness_HostActions :
    (1 < Config.chMax ∧ 65535 < Config.blockCap) ∧
    ({ coming (.hostRead 1 65535) with blk := Vector.replicate 2 [(65535, 7)] } : State).blkWord? 1 65535 = some 7 ∧
    (coming (.hostRead 1 65535)).blkWord? 1 65535 = none ∧
    Config.chMax ≤ 2 ∧ Config.blockCap ≤ 65536 := by decide +kernel

theorem witness_IdleHoldsState : ready.pending = [] := rfl

/-- The greatest encoding that is no NaN, and the first that is. -/
theorem witness_SetParamStoresClampedValue : F32.isNaN 0x7F800000#32 = false := by decide
theorem witness_SetParamRefusesNaN : F32.isNaN 0x7F800001#32 = true ∧ F32.isNaN 0xFFFFFFFF#32 = true := by decide

/-- One ulp outside each bound, each bound, and the special values. -/
theorem witness_ClampFollowsBounds :
    (F32.le (paramLo .rate) (paramHi .rate) = true ∧ F32.le 0x3F800000#32 0x3F800000#32 = true) ∧
    (F32.lt 0x3F7FFFFF#32 (paramLo .rate) = true ∧ F32.lt 0x3C23D709#32 (paramLo .depth) = true) ∧
    (F32.lt (paramHi .rate) 0x41400001#32 = true ∧ F32.lt (paramHi .depth) 0x3D4CCCCE#32 = true) ∧
    (F32.within (paramLo .rate) (paramHi .rate) 0x3F800000#32 = true ∧
      F32.within (paramLo .rate) (paramHi .rate) 0x41400000#32 = true) ∧
    (F32.within (paramLo .depth) (paramHi .depth) 0x3C23D70A#32 = true ∧
      F32.within (paramLo .depth) (paramHi .depth) 0x3D4CCCCD#32 = true) ∧
    ((0x80000000#32).msb = true ∧ F32.isNaN 0x80000000#32 = false ∧ (0xFF800000#32).msb = true ∧
      F32.isNaN 0xFF800000#32 = false ∧ F32.isNaN 0x00000000#32 = false ∧ F32.isNaN 0x7F800000#32 = false) := by
  refine ⟨?_, ?_, ?_, ?_, ?_, ?_⟩ <;> decide +kernel

theorem witness_LoadParamsStoresBoth : F32.isNaN 0x80000000#32 = false ∧ F32.isNaN 0xFF800000#32 = false := by decide

/-- A step that is the event of a packet on its own port: the command's transition. -/
theorem step_packet {s t : State} {port : Port} {p : Packet} {i : Instr} (hd : decode p = .ok i) (hp : i.port = port)
    (h : exec i s = .next t) (hs : s.pending = []) : step { s with pending := [.packet port p] } = .next t := by
  have he : ({ s with pending := [] } : State) = s := by rw [← hs]
  show State.receive { s with pending := [] } port p = .next t
  rw [he]
  unfold State.receive deliver
  rw [hd]
  simp only [hp, if_true]
  exact h

/-- A block on a state with DIRTY set, an INIT, and the idle step. -/
theorem witness_SnapshotNeverTorn :
    (∃ t, step { readyDirty with pending := [.packet .host ⟨0x31100001#32, 0⟩] } = .next t) ∧
    (∃ t, step (coming (.packet .host ⟨0x10000000#32, 0⟩)) = .next t) ∧ step ready = .next ready :=
  ⟨test_dirty_block_runs.imp fun _ h => step_packet (i := .processBlock 1 1 1) rfl rfl h rfl, ⟨_, rfl⟩, rfl⟩

/-- SET_PARAM rate, 12.0 makes `ready` into `readyDirty`. -/
theorem setParam_ready : exec (.setParam .rate 0x41400000#32) ready = .next readyDirty := rfl

theorem witness_ParameterReachesNextBlock :
    F32.isNaN 0x41400000#32 = false ∧ exec (.setParam .rate 0x41400000#32) ready = .next readyDirty ∧
    (∃ u, exec (.loadParams true 0x41400000#32 0x3D4CCCCD#32) ready = .next u) ∧ F32.isNaN 0x3D4CCCCD#32 = false ∧
    step readyDirty = .next readyDirty ∧ readyDirty.dirty = true ∧ readyDirty.lc = lcActive ∧ outOfBounds 1 1 1 = false ∧
    ∃ t, exec (.processBlock 1 1 1) readyDirty = .next t :=
  ⟨by decide, setParam_ready, ⟨_, rfl⟩, by decide, rfl, rfl, rfl, by decide, test_dirty_block_runs⟩

theorem witness_CleanStoreIsInvisible : ready.dirty = false ∧ ∃ t, exec (.processBlock 2 2 1) ready = .next t :=
  ⟨rfl, test_block_runs⟩

theorem witness_CtrlCommutesWithBlock :
    (Instr.setParam .rate 0x41400000#32).port = .ctrl ∧ (∃ t, hardware.blockBody 2 2 1 ready = .ok t) ∧
    exec (.setParam .rate 0x41400000#32) ready = .next readyDirty := ⟨rfl, body_runs, setParam_ready⟩

theorem witness_CtrlCommandFrame :
    (Instr.setParam .rate 0x41400000#32).port = .ctrl ∧ exec (.setParam .rate 0x41400000#32) ready = .next readyDirty :=
  ⟨rfl, setParam_ready⟩

/-- 1000.0 and 192000.0 Hz. -/
theorem witness_PrepareSizesAndClears :
    badSampleRate 0x408F400000000000#64 = false ∧ badSampleRate 0x4107700000000000#64 = false := by decide

/-- One ulp outside each bound, and a NaN. -/
theorem witness_PrepareChecksRate :
    badSampleRate 0x408F3FFFFFFFFFFF#64 = true ∧ badSampleRate 0x4107700000000001#64 = true ∧
    badSampleRate 0x7FF8000000000000#64 = true := by decide

theorem witness_PrepareTwiceIsOnce :
    badSampleRate 0x408F400000000000#64 = false ∧ ∃ t, exec (.prepare 16 0x408F400000000000#64) State.reset = .next t := by
  refine ⟨by decide, ?_⟩
  have h : (after (exec (.prepare 16 0x408F400000000000#64) State.reset)).isSome = true := by decide +kernel
  cases hx : exec (.prepare 16 0x408F400000000000#64) State.reset with
  | next t => exact ⟨t, rfl⟩
  | fault f => rw [hx] at h; cases h
  | refused r => rw [hx] at h; cases h

theorem witness_ResetClearsContentOnly :
    State.reset.lReg ≤ Config.bufCap ∧ ({ State.reset with lReg := 9605 } : State).lReg ≤ Config.bufCap := by decide

theorem witness_ResetIsIdempotent : ∃ t, exec .reset State.reset = .next t := ⟨_, rfl⟩

theorem witness_LifecycleTransitions :
    (∃ t, exec .init ready = .next t) ∧ (∃ t, exec (.prepare 16 0x408F400000000000#64) State.reset = .next t) ∧
    (∃ t, exec (.processBlock 2 2 1) ready = .next t) ∧ ∃ t, exec .reset State.reset = .next t :=
  ⟨⟨_, rfl⟩, witness_PrepareTwiceIsOnce.2, test_block_runs, ⟨_, rfl⟩⟩

/-- The four extreme pairs of frequency and rate, and the extreme phases. -/
theorem witness_PhaseAdvKeepsRange :
    (F32.within Config.rateMin Config.rateMax 0x3F800000#32 = true ∧
      F32.within Config.rateMin Config.rateMax 0x41400000#32 = true) ∧
    (badSampleRate 0x408F400000000000#64 = false ∧ badSampleRate 0x4107700000000000#64 = false) ∧
    (F32.inUnit 0x00000000#32 = true ∧ F32.inUnit 0x3F7FFFFF#32 = true) := by refine ⟨?_, ?_, ?_⟩ <;> decide +kernel

theorem witness_PhaseIncrementBounds :
    F32.within Config.rateMin Config.rateMax 0x40C00000#32 = true ∧ badSampleRate 0x40E5888000000000#64 = false := by decide

/-- 1 Hz at 2 samples per second, from phase 0. -/
theorem witness_RealPhaseIsPeriodic :
    (0 : ℝ) < 1 ∧ 0 < 2 ∧ (2 : ℝ) = (2 : ℕ) * 1 ∧ (0 : ℝ) ≤ 0 ∧ (0 : ℝ) < 1 := by norm_num

theorem witness_DelayLineSizing :
    badSampleRate 0x408F400000000000#64 = false ∧ badSampleRate 0x4107700000000000#64 = false ∧
    F64.le 0x408F400000000000#64 0x4107700000000000#64 = true := by decide

/-- Both extremes of the width, the modulation and the write index, at 1000.0 Hz. -/
theorem witness_ReadNeverOvertakesWrite :
    (F32.within Config.depthMin Config.depthMax 0x3C23D70A#32 = true ∧
      F32.within Config.depthMin Config.depthMax 0x3D4CCCCD#32 = true) ∧
    (F32.within 0x00000000#32 0x3F800000#32 0x00000000#32 = true ∧
      F32.within 0x00000000#32 0x3F800000#32 0x3F800000#32 = true) ∧
    badSampleRate 0x408F400000000000#64 = false ∧ lsize 0x408F400000000000#64 = 55 ∧ 0 < 55 ∧ 54 < 55 := by
  refine ⟨?_, ?_, ?_, ?_, ?_⟩ <;> decide +kernel

/-- Write index 0, whose read wraps: the words at 52 and 53. -/
theorem witness_ZeroModulationReadsThreeBack :
    F32.within Config.depthMin Config.depthMax 0x3C23D70A#32 = true ∧ badSampleRate 0x408F400000000000#64 = false ∧
    55 = lsize 0x408F400000000000#64 ∧ 0 < 55 ∧ rampBank.read? ((0 + 55 - 3) % 55) = some 0x42500000#32 ∧
    rampBank.read? ((0 + 55 - 2) % 55) = some 0x42540000#32 ∧ F32.mag 0x42500000#32 < 0x7F800000 ∧
    F32.mag 0x42540000#32 < 0x7F800000 ∧ 0x42500000#32 ≠ 0x80000000#32 := by decide +kernel

theorem witness_DelayWriteStoresSample : 9604 < 9605 ∧ 9605 ≤ Config.bufCap := by decide

theorem witness_RealReadPosition : 0 < 1 := by decide

/-- Write index 2 and m = 0 at L = 55: the read position is 54, and the second word wraps to 0. -/
theorem witness_RealReadIsBetweenTaps :
    0 < 55 ∧ 55 ≤ Config.bufCap ∧
    54 = ⌊RealReading.readPosition 2 55 (RealReading.readOffset (RealReading.const 0x3C23D70A#32) 0
      (RealReading.rate 0x408F400000000000#64))⌋₊ ∧
    Bank.read? ([(0, 1), (54, -1)] : Bank ℝ) 54 = some (-1) ∧
    Bank.read? ([(0, 1), (54, -1)] : Bank ℝ) ((54 + 1) % 55) = some 1 := by
  refine ⟨by decide, by decide, ?_, rfl, rfl⟩
  have h : RealReading.readPosition 2 55 (RealReading.readOffset (RealReading.const 0x3C23D70A#32) 0
      (RealReading.rate 0x408F400000000000#64)) = 54 := by
    have hk : (Config.params.rMargin : ℝ) = 3 := by norm_num [Config.params]
    have hf : ⌊(54 : ℝ) / 55⌋ = 0 := by rw [Int.floor_eq_zero_iff]; constructor <;> norm_num
    have hn : RealReading.readNumerator 2 55 0 = 54 := by unfold RealReading.readNumerator; rw [hk]; norm_num
    simp only [RealReading.readOffset, mul_zero, zero_mul, RealReading.readPosition, hn]
    rw [show ((55 : ℕ) : ℝ) = 55 by norm_num, hf]
    norm_num
  rw [h]
  norm_num

/-- A state of the block under NUMERICS = Real: a delay line of one word, and one silent input word on each channel. -/
noncomputable def realReady : State ℝ ℝ :=
  { State.powerOn Config.params 0 0 with
    lc := lcActive
    buf := Vector.replicate Config.chMax [(0, 0)]
    blk := Vector.replicate Config.chMax [(0, 0)] }

/-- A block of one sample runs from it: with L = 1 the read position lies in [0, 1), whatever the offset is. -/
theorem real_block_runs : ∃ t, (real Config.params).exec (.processBlock 1 1 1) realReady = .next t := by
  have hi : ∀ off : ℝ, ⌊RealReading.readPosition 0 1 off⌋₊ = 0 := fun off => by
    rw [Nat.floor_eq_zero]
    unfold RealReading.readPosition
    simp only [Nat.cast_one, div_one, one_mul]
    exact Int.fract_lt_one _
  have ht : ∀ m : ℝ, ∃ fr, (real Config.params).tap 0 0 1 realReady.width realReady.sr m = some (0, fr) := fun m =>
    ⟨_, congrArg some (Prod.ext (hi _) rfl)⟩
  obtain ⟨fr, hfr⟩ := ht ((real Config.params).lfo 0)
  have hr : (real Config.params).dlRead 0 0 realReady.width realReady.sr 1 ([(0, 0)] : Bank ℝ) 0
      ((real Config.params).lfo 0) = .ok ((real Config.params).interpolate 0 fr 0 0) :=
    dlRead_ok.2 ⟨0, fr, hfr, ⟨by decide, (by decide : (0 : Nat) < Config.bufCap)⟩,
      ⟨by decide, (by decide : (0 : Nat) < Config.bufCap)⟩, rfl⟩
  have h : ∃ t, (real Config.params).blockBody 1 1 1 realReady.refreshIfDirty = .ok t :=
    ⟨_, blockBody_ok.2 ⟨_, runChannels_succ_ok.2 ⟨by decide, _, runSamples_succ_ok.2
      ⟨_, sampleStep_ok.2 ⟨0, _, ⟨(by decide : (0 : Nat) < Config.blockCap), rfl⟩, hr,
        ⟨(by decide : (0 : Nat) < 1), (by decide : (0 : Nat) < Config.bufCap)⟩, rfl⟩, rfl⟩, rfl⟩, rfl⟩⟩
  exact h.imp fun _ h => outcomeOf_next.2 h

/-- A read position with an index; weight 1 and two samples of magnitude 2^127 and opposite signs; a silent block at A = 0. -/
theorem witness_InterpolatorIsBounded :
    (readPosition 2 55 0).floorNat? = some 54 ∧
    F32.within 0x00000000#32 0x3F800000#32 0x3F800000#32 = true ∧ F32.mag 0x7F000000#32 < 0x7F800000 ∧
    F32.mag 0xFF000000#32 < 0x7F800000 ∧ |F32.toRat 0x7F000000#32| ≤ 2 ^ 127 ∧ |F32.toRat 0xFF000000#32| ≤ 2 ^ 127 := by
  decide +kernel

/-- A silent block of `ready` on channel 1, and one of `realReady` on channel 0, at A = 0. -/
theorem witness_InterpolatorIsBounded_blocks :
    (ready.lc ≠ lcUninit ∧ outOfBounds 2 2 1 = false ∧ (∃ t, exec (.processBlock 2 2 1) ready = .next t) ∧ 1 < 2 ∧
      (∀ i < ready.lReg, ready.bufWord? 1 i = some 0) ∧ (∀ n < 1, ready.blkWord? 1 n = some 0) ∧
      F32.mag 0 < 0x7F800000 ∧ |F32.toRat 0| ≤ 0) ∧
    (realReady.lc ≠ lcUninit ∧ outOfBounds 1 1 1 = false ∧
      (∃ t, (real Config.params).exec (.processBlock 1 1 1) realReady = .next t) ∧
      (∀ i < realReady.lReg, realReady.bufWord? 0 i = some 0) ∧ ∀ n < 1, realReady.blkWord? 0 n = some 0) := by
  refine ⟨⟨by decide, by decide, test_block_runs, by decide, by decide +kernel, by decide, by decide, by decide +kernel⟩,
    (by decide : lcActive ≠ lcUninit), by decide, real_block_runs, fun i hi => ?_, fun n hn => ?_⟩
  · obtain rfl : i = 0 := Nat.lt_one_iff.1 hi
    rfl
  · obtain rfl : n = 0 := Nat.lt_one_iff.1 hn
    rfl

theorem witness_NotPreparedPassesThrough : State.reset.lc = 0#2 := rfl

/-- Each capacity exceeded by one. -/
theorem witness_OverCapacityIsRefused : ready.lc ≠ 0#2 ∧ ready.lc ≠ 3#2 ∧ 2 < 3 ∧ 65536 < 65537 := by decide

theorem witness_ProcessBlockCompletes :
    ready.Inv ∧ ready.lc = lcActive ∧ outOfBounds 2 2 1 = false ∧ ready.inputsWritten 2 1 :=
  ⟨test_ready_sound, rfl, by decide, by unfold State.inputsWritten; decide⟩

theorem witness_OneSampleBlock : ready.Inv ∧ ready.lc = lcActive ∧ ready.dirty = false ∧ ready.blkWord? 0 0 = some 0 :=
  ⟨test_ready_sound, rfl, rfl, rfl⟩

/-- The second sample of the second channel, with DIRTY set. -/
theorem witness_OneSampleBlock_blocks :
    readyStill.lc ≠ lcUninit ∧ outOfBounds 2 2 2 = false ∧ readyStill.widx < readyStill.lReg ∧
    (∃ t, exec (.processBlock 2 2 2) readyStill = .next t) ∧ 1 < 2 :=
  ⟨by decide, by decide, by decide, test_two_samples_run, by decide⟩

/-- BUF[1] as the second sample of a block finds it: the first input stands at the write index, the last live word is as it was. -/
theorem test_lineBefore :
    ({ readyStill with widx := 54, blk := Vector.replicate Config.chMax [(0, 0x3F800000#32)] } : State).lineBefore 1 1 =
      Bank.write (Bank.clear [] 55 0) 54 0x3F800000#32 := by decide +kernel

/-- A block of two samples, of which the second is unwritten. -/
theorem witness_UnwrittenInputFaults :
    ready.Inv ∧ ready.lc = lcActive ∧ outOfBounds 1 1 2 = false ∧ 0 < 1 ∧ 1 < 2 ∧ ready.blkWord? 0 1 = none ∧
    ∀ c' n', c' < 1 → n' < 2 → (c' < 0 ∨ c' = 0 ∧ n' < 1) → (ready.blkWord? c' n').isSome = true := by
  refine ⟨test_ready_sound, rfl, by decide, by decide, by decide, rfl, fun c' n' _ _ h => ?_⟩
  obtain ⟨rfl, rfl⟩ : c' = 0 ∧ n' = 0 := by omega
  rfl

theorem witness_ProcessBlockFrame :
    (∃ t, exec (.processBlock 1 2 1) ready = .next t) ∧ ready.lc ≠ lcUninit ∧ outOfBounds 1 2 1 = false ∧
    1 ≤ 1 ∧ 1 < 2 ∧ 0 < 1 := ⟨test_block_with_extra_output_runs, by decide⟩

theorem witness_PhaseAndIndexAdvanceOnce :
    ready.lc ≠ lcUninit ∧ outOfBounds 2 2 1 = false ∧ outOfBounds 0 2 1 = false ∧ ready.widx < ready.lReg ∧
    (∃ t, exec (.processBlock 2 2 1) ready = .next t) ∧ ∃ t, exec (.processBlock 0 2 1) ready = .next t :=
  ⟨by decide, by decide, by decide, by decide, test_block_runs, ⟨_, rfl⟩⟩

theorem witness_EmptyBlockOnlyRefreshes :
    readyDirty.lc = lcActive ∧ outOfBounds 2 2 0 = false ∧ ready.lc = lcActive ∧ outOfBounds 0 0 0 = false := by decide

/-- The one sample of the block is recorded at word 0; word 1 is written to by none. -/
theorem witness_DelayLineRecordsInput :
    ready.lc ≠ lcUninit ∧ outOfBounds 2 2 1 = false ∧ ready.widx < ready.lReg ∧
    (∃ t, exec (.processBlock 2 2 1) ready = .next t) ∧ 1 < 2 ∧ (0 < 1 ∧ 1 ≤ 0 + ready.lReg) ∧
    ∀ j < 1, (ready.widx + j) % ready.lReg ≠ 1 :=
  ⟨by decide, by decide, by decide, test_block_runs, by decide, by decide, by decide⟩

theorem witness_SilenceInSilenceOut :
    ready.lc ≠ lcUninit ∧ outOfBounds 2 2 1 = false ∧ (∃ t, exec (.processBlock 2 2 1) ready = .next t) ∧ 1 < 2 ∧
    (∀ i < ready.lReg, ready.bufWord? 1 i = some 0x00000000#32) ∧ ∀ n < 1, ready.blkWord? 1 n = some 0x00000000#32 :=
  ⟨by decide, by decide, test_block_runs, by decide, by decide +kernel, by decide⟩

theorem witness_IdenticalChannelsAgree :
    ready.lc ≠ lcUninit ∧ outOfBounds 2 2 1 = false ∧ (∃ t, exec (.processBlock 2 2 1) ready = .next t) ∧ 0 < 2 ∧ 1 < 2 ∧
    (∀ i < ready.lReg, (ready.bufWord? 0 i).isSome = true ∧ ready.bufWord? 0 i = ready.bufWord? 1 i) ∧
    ∀ n < 1, ready.blkWord? 0 n = ready.blkWord? 1 n :=
  ⟨by decide, by decide, test_block_runs, by decide, by decide, by decide +kernel, by decide⟩

theorem witness_BlockSizeHintIsUnread :
    (∀ m r, Instr.processBlock 2 2 1 ≠ .prepare m r) ∧ Instr.processBlock 2 2 1 ≠ .init ∧
    ∃ t, exec (.processBlock 2 2 1) ready = .next t := ⟨fun _ _ h => (by cases h), by decide, test_block_runs⟩

theorem witness_ResponseGoesToOwnPort :
    (∃ t, State.receive State.reset .host ⟨0x10000000#32, 0⟩ = .next t) ∧
    (∃ t, State.receive State.reset .ctrl ⟨0x10000000#32, 0⟩ = .next t) ∧ decode ⟨0x10000000#32, 0⟩ ≠ .ok .readParams :=
  ⟨⟨_, rfl⟩, ⟨_, rfl⟩, fun h => by cases h⟩

/-- An illegal packet on HOST, and a NaN parameter on CTRL. -/
theorem witness_ErrorsArePrecise :
    (∃ t, State.receive State.reset .host ⟨0x00000000#32, 0⟩ = .next t ∧ t.hStatus ≠ 0x00#8 ∧ t.hStatus ≠ 0x02#8) ∧
    ∃ t, State.receive State.reset .ctrl ⟨0x50000000#32, 0x7FC00000#64⟩ = .next t ∧ t.cStatus ≠ 0x00#8 ∧ t.cStatus ≠ 0x02#8 :=
  ⟨⟨_, rfl, by decide, by decide⟩, ⟨_, rfl, by decide, by decide⟩⟩

theorem witness_StepKeepsInvariant : ready.Inv ∧ step ready = .next ready := ⟨test_ready_sound, rfl⟩

/-- A sound state whose next step stops: the host reads outside BLK. -/
theorem witness_SoundStatesStopOnlyByTheHost :
    (coming (.hostRead 2 0)).Inv ∧ step (coming (.hostRead 2 0)) = .fault (.hostStuck 2 0) :=
  ⟨by constructor <;> decide +kernel, rfl⟩

end Sys2Proof.Machine.Tests
end

section
/-! PROOFS. The response registers (10_state.md R48): what a packet answers, and on which port. -/

namespace Sys2Proof.Machine

open Sys2Proof

section
variable {V W : Type} {ch : Nat} {d : Design V W} {s t u : State V W ch}

/-! ## A command's answer -/

/-- `u` has the response registers of `s`, on both ports. -/
structure State.SameResponses (s u : State V W ch) : Prop where
  hStatus : u.hStatus = s.hStatus
  hRdata : u.hRdata = s.hRdata
  cStatus : u.cStatus = s.cStatus
  cRdata : u.cRdata = s.cRdata

/-- `t` comes from `s` by updates that touch no response register, and then one response on `port` with `data`. -/
def State.Answers (s : State V W ch) (port : Port) (data : BitVec 64) (t : State V W ch) : Prop :=
  ∃ u st, s.SameResponses u ∧ t = u.respond port st data

theorem State.SameResponses.refl (s : State V W ch) : s.SameResponses s := ⟨rfl, rfl, rfl, rfl⟩

theorem State.SameResponses.trans (hu : s.SameResponses u) (ht : u.SameResponses t) : s.SameResponses t :=
  ⟨ht.hStatus.trans hu.hStatus, ht.hRdata.trans hu.hRdata, ht.cStatus.trans hu.cStatus, ht.cRdata.trans hu.cRdata⟩

theorem State.SameResponses.answers (h : s.SameResponses u) (port : Port) (st : Status) (data : BitVec 64) :
    s.Answers port data (u.respond port st data) := ⟨u, st, h, rfl⟩

theorem State.respond_answers (s : State V W ch) (port : Port) (st : Status) (data : BitVec 64) :
    s.Answers port data (s.respond port st data) := (State.SameResponses.refl s).answers port st data

/-- An answer on HOST, register by register. -/
theorem State.Answers.host {data : BitVec 64} (h : s.Answers .host data t) :
    (∃ st : Status, t.hStatus = st.code) ∧ t.hRdata = data ∧ t.cStatus = s.cStatus ∧ t.cRdata = s.cRdata := by
  obtain ⟨u, st, hu, rfl⟩ := h
  exact ⟨⟨st, rfl⟩, rfl, hu.cStatus, hu.cRdata⟩

/-- An answer on CTRL, register by register. -/
theorem State.Answers.ctrl {data : BitVec 64} (h : s.Answers .ctrl data t) :
    (∃ st : Status, t.cStatus = st.code) ∧ t.cRdata = data ∧ t.hStatus = s.hStatus ∧ t.hRdata = s.hRdata := by
  obtain ⟨u, st, hu, rfl⟩ := h
  exact ⟨⟨st, rfl⟩, rfl, hu.hStatus, hu.hRdata⟩

/-! ## Updates that touch no response register -/

theorem State.refreshIfDirty_sameResponses (s : State V W ch) : s.SameResponses s.refreshIfDirty := by
  constructor <;> simp

theorem State.storeParam_sameResponses (s : State V W ch) (pid : ParamId) (v : F32) :
    s.SameResponses (s.storeParam pid v) := by
  constructor <;> simp

/-! ## One lemma per command -/

theorem init_answers (h : d.init s = .next t) : s.Answers .host 0 t := by
  cases h
  exact ⟨d.initRegisters s, .ok, by constructor <;> simp, rfl⟩

theorem prepare_answers {m : Nat} {r : F64} (h : d.prepare m r s = .next t) : s.Answers .host 0 t := by
  obtain ⟨-, rfl⟩ | ⟨-, -, rfl⟩ := prepare_next h
  · exact s.respond_answers ..
  · exact ⟨_, .ok, by constructor <;> rfl, rfl⟩

theorem reset_answers (h : d.reset s = .next t) : s.Answers .host 0 t := by
  obtain ⟨-, rfl⟩ := reset_next h
  exact ⟨_, .ok, by constructor <;> rfl, rfl⟩

theorem blockBody_answers {nin nout nsamp : Nat} (h : d.blockBody nin nout nsamp s = .ok t) : s.Answers .host 0 t := by
  obtain ⟨ls, -, rfl⟩ := blockBody_ok.1 h
  exact ⟨_, .ok, by constructor <;> rfl, rfl⟩

theorem processBlock_answers {nin nout nsamp : Nat} (h : d.processBlock nin nout nsamp s = .next t) :
    s.Answers .host 0 t := by
  obtain ⟨-, rfl⟩ | ⟨-, -, rfl⟩ | ⟨-, -, hbody⟩ := processBlock_next h
  · exact s.respond_answers ..
  · exact s.respond_answers ..
  · obtain ⟨u, st, hu, ht⟩ := blockBody_answers hbody
    exact ⟨u, st, s.refreshIfDirty_sameResponses.trans hu, ht⟩

theorem setParam_answers {pid : ParamId} {value : F32} (h : d.setParam pid value s = .next t) :
    s.Answers .ctrl 0 t := by
  unfold Design.setParam at h
  split at h <;> cases h
  case isTrue => exact s.respond_answers ..
  case isFalse => exact (s.storeParam_sameResponses ..).answers ..

theorem readParams_answers (h : s.readParams = .next t) : s.Answers .ctrl (s.depthReg ++ s.rateReg) t := by
  cases h
  exact s.respond_answers ..

theorem loadParams_answers {ok : Bool} {rate depth : F32} (h : d.loadParams ok rate depth s = .next t) :
    s.Answers .ctrl 0 t := by
  unfold Design.loadParams at h
  split at h
  case isTrue =>
    cases h
    exact s.respond_answers ..
  case isFalse =>
    split at h <;> cases h
    case isTrue => exact s.respond_answers ..
    case isFalse => exact ((s.storeParam_sameResponses ..).trans (State.storeParam_sameResponses ..)).answers ..

end

/-! ## Every command, every packet -/

/-- The data word of a command's answer: the parameter pair for READ_PARAMS (40_parameter_store.md R146), 0 for the rest. -/
def answerData (s : State) : Instr → BitVec 64
  | .readParams => s.depthReg ++ s.rateReg
  | _ => 0

theorem answerData_of_ne {s : State} {i : Instr} (h : i ≠ .readParams) : answerData s i = 0 := by
  cases i with
  | readParams => exact absurd rfl h
  | _ => rfl

/-- A command that answers a next state has answered on the port that accepts it, and there only. -/
theorem exec_answers {i : Instr} {s t : State} (h : exec i s = .next t) : s.Answers i.port (answerData s i) t := by
  cases i with
  | init => exact init_answers (d := hardware) h
  | prepare maxblk sr => exact prepare_answers (d := hardware) h
  | processBlock nin nout nsamp => exact processBlock_answers (d := hardware) h
  | reset => exact reset_answers (d := hardware) h
  | setParam pid value => exact setParam_answers (d := hardware) h
  | readParams => exact readParams_answers h
  | loadParams ok rate depth => exact loadParams_answers (d := hardware) h

/-- A packet that is received answers on the port it arrived on, with data 0 unless it is a READ_PARAMS on its own port. -/
theorem receive_answers {s t : State} {port : Port} {p : Packet} (h : s.receive port p = .next t) :
    ∃ data, s.Answers port data t ∧ (data = 0 ∨ decode p = .ok .readParams ∧ port = .ctrl) := by
  obtain ⟨i, hd, rfl, hx⟩ | ⟨-, -, rfl⟩ | ⟨-, -, -, rfl⟩ := receive_next h
  · refine ⟨_, exec_answers hx, ?_⟩
    by_cases hi : i = .readParams
    · exact .inr ⟨hi ▸ hd, hi ▸ rfl⟩
    · exact .inl (answerData_of_ne hi)
  · exact ⟨0, s.respond_answers .., .inl rfl⟩
  · exact ⟨0, s.respond_answers .., .inl rfl⟩

/-- Settles O56: what a packet answers (`receive_answers`), read off port by port. -/
theorem responseGoesToOwnPort : Obligations.ResponseGoesToOwnPort := by
  intro s t p
  constructor
  · intro h
    obtain ⟨data, ha, rfl | ⟨-, hport⟩⟩ := receive_answers h
    · exact ha.host
    · cases hport
  · intro h
    obtain ⟨data, ha, hdata⟩ := receive_answers h
    obtain ⟨hstatus, hrdata, hkept⟩ := ha.ctrl
    refine ⟨hstatus, fun hne => ?_, hkept⟩
    obtain rfl | ⟨hread, -⟩ := hdata
    · exact hrdata
    · exact absurd hread hne

end Sys2Proof.Machine
end

section
/-! PROOFS. The byte-wide transport (20_memory.md R85): the bytes of a word, and the packet read back from its bytes. -/

namespace Sys2Proof

/-! ## The bytes of a word, whatever its width -/

@[simp] theorem bytesOfWord_zero {w : Nat} (v : BitVec w) : bytesOfWord 0 v = [] := rfl

@[simp] theorem length_bytesOfWord {w : Nat} (n : Nat) (v : BitVec w) : (bytesOfWord n v).length = n := by
  simp [bytesOfWord]

theorem extractLsb'_ushiftRight {w : Nat} (v : BitVec w) (start k len : Nat) :
    (v >>> k).extractLsb' start len = v.extractLsb' (k + start) len := by
  ext i hi
  simp [Nat.add_assoc]

/-- The least significant byte comes first; behind it come the bytes of the word shifted down by that byte. -/
theorem bytesOfWord_succ {w : Nat} (n : Nat) (v : BitVec w) :
    bytesOfWord (n + 1) v = v.extractLsb' 0 8 :: bytesOfWord n (v >>> 8) := by
  simp [bytesOfWord, List.range_succ_eq_map, extractLsb'_ushiftRight, Nat.mul_add, Nat.add_comm]

/-- `n` bytes hold a word's low `8 * n` bits. -/
theorem wordOfBytes_bytesOfWord {w : Nat} (n : Nat) (v : BitVec w) :
    wordOfBytes (bytesOfWord n v) = v.toNat % 2 ^ (8 * n) := by
  induction n generalizing v with
  | zero => simp [wordOfBytes, Nat.mod_one]
  | succ n ih =>
    have hpow : 2 ^ (8 * (n + 1)) = 256 * 2 ^ (8 * n) := by rw [Nat.mul_succ, Nat.pow_add]; omega
    calc wordOfBytes (bytesOfWord (n + 1) v)
        = v.toNat % 256 + 256 * (v.toNat / 256 % 2 ^ (8 * n)) := by
          simp [bytesOfWord_succ, wordOfBytes, ih, Nat.shiftRight_eq_div_pow]
      _ = v.toNat % 2 ^ (8 * (n + 1)) := by rw [hpow, Nat.mod_mul]

/-- No bit is lost when the bytes are enough for the width. -/
theorem wordOfBytes_bytesOfWord_of_le {w n : Nat} (h : w ≤ 8 * n) (v : BitVec w) :
    wordOfBytes (bytesOfWord n v) = v.toNat := by
  rw [wordOfBytes_bytesOfWord]
  exact Nat.mod_eq_of_lt (v.isLt.trans_le (Nat.pow_le_pow_right (by decide) h))

/-! ## The two widths that travel -/

theorem bytesOfWord_four {w : Nat} (v : BitVec w) :
    bytesOfWord 4 v = [v.extractLsb' 0 8, v.extractLsb' 8 8, v.extractLsb' 16 8, v.extractLsb' 24 8] := rfl

theorem bytesOfWord_eight {w : Nat} (v : BitVec w) :
    bytesOfWord 8 v =
      [v.extractLsb' 0 8, v.extractLsb' 8 8, v.extractLsb' 16 8, v.extractLsb' 24 8,
       v.extractLsb' 32 8, v.extractLsb' 40 8, v.extractLsb' 48 8, v.extractLsb' 56 8] := rfl

/-! ## A packet -/

@[simp] theorem Packet.length_toBytes (p : Packet) : p.toBytes.length = 12 := by
  simp [Packet.toBytes]

theorem Packet.take_toBytes (p : Packet) : p.toBytes.take 4 = bytesOfWord 4 p.cw :=
  List.take_left' (length_bytesOfWord ..)

theorem Packet.drop_toBytes (p : Packet) : p.toBytes.drop 4 = bytesOfWord 8 p.pl :=
  List.drop_left' (length_bytesOfWord ..)

/-- The transport loses nothing: the cut behind the fourth byte gives back CW's bytes and PL's, and each its word. -/
theorem Packet.ofBytes?_toBytes (p : Packet) : Packet.ofBytes? p.toBytes = some p := by
  have hcw : wordOfBytes (bytesOfWord 4 p.cw) = p.cw.toNat := wordOfBytes_bytesOfWord_of_le (by decide) p.cw
  have hpl : wordOfBytes (bytesOfWord 8 p.pl) = p.pl.toNat := wordOfBytes_bytesOfWord_of_le (by decide) p.pl
  simp [Packet.ofBytes?, p.take_toBytes, p.drop_toBytes, hcw, hpl]

/-- Settles O8: the packet read back (`Packet.ofBytes?_toBytes`), and the byte order of words of four and of eight bytes. -/
theorem packetTransport : Obligations.PacketTransport := by
  refine ⟨fun p => ⟨p.ofBytes?_toBytes, ?_⟩, fun v => ⟨?_, bytesOfWord_four v⟩⟩
  · simp only [Packet.toBytes, bytesOfWord_four, bytesOfWord_eight, List.cons_append, List.nil_append]
  · exact wordOfBytes_bytesOfWord_of_le (by decide) v

end Sys2Proof
end

section
/-! PROOFS. Illegal packets and ignored bits (30_encoding.md R119–R121): the decoder row by row of the opcode map, and what a packet
that is no command does. -/

namespace Sys2Proof

/-! ## The opcode map (R118), an equation per row -/

/-- The opcode field of a statement, which is four bits, and the number that the decoder reads from it. -/
theorem Packet.opc_eq {p : Packet} {k : BitVec 4} (h : p.cw.extractLsb' 28 4 = k) : p.opc = k.toNat :=
  congrArg BitVec.toNat h

theorem Packet.le_opc {p : Packet} {k : BitVec 4} (h : k ≤ p.cw.extractLsb' 28 4) : k.toNat ≤ p.opc := BitVec.le_def.1 h

section
variable {p : Packet}

theorem decode_init (h : p.opc = 0x1) : decode p = if p.reservedN = 0 then .ok .init else .error .reservedBits := by
  simp only [decode, h]

theorem decode_prepare (h : p.opc = 0x2) :
    decode p = if p.reservedP = 0 then .ok (.prepare p.maxblk p.pl) else .error .reservedBits := by
  simp only [decode, h]

theorem decode_processBlock (h : p.opc = 0x3) : decode p = .ok (.processBlock p.nin p.nout p.nsamp) := by
  simp only [decode, h]

theorem decode_reset (h : p.opc = 0x4) : decode p = if p.reservedN = 0 then .ok .reset else .error .reservedBits := by
  simp only [decode, h]

theorem decode_setParam (h : p.opc = 0x5) :
    decode p =
      if p.reservedSL = 0 then .ok (.setParam (if p.flag then .depth else .rate) p.plLow) else .error .reservedBits := by
  simp only [decode, h]

theorem decode_readParams (h : p.opc = 0x6) :
    decode p = if p.reservedN = 0 then .ok .readParams else .error .reservedBits := by
  simp only [decode, h]

theorem decode_loadParams (h : p.opc = 0x7) :
    decode p = if p.reservedSL = 0 then .ok (.loadParams p.flag p.plLow p.plHigh) else .error .reservedBits := by
  simp only [decode, h]

/-- The rows without a mnemonic (R119). -/
theorem decode_reservedOpcode (h : p.opc = 0x0 ∨ 0x8 ≤ p.opc) : decode p = .error .reservedOpcode := by
  unfold decode
  split
  case h_8 => rfl
  all_goals omega

/-! ## Reserved bits, format by format (R120) -/

theorem decode_reservedN (h : p.opc = 0x1 ∨ p.opc = 0x4 ∨ p.opc = 0x6) (hr : p.reservedN ≠ 0) :
    decode p = .error .reservedBits := by
  obtain h | h | h := h
  · exact (decode_init h).trans (if_neg hr)
  · exact (decode_reset h).trans (if_neg hr)
  · exact (decode_readParams h).trans (if_neg hr)

theorem decode_reservedP (h : p.opc = 0x2) (hr : p.reservedP ≠ 0) : decode p = .error .reservedBits :=
  (decode_prepare h).trans (if_neg hr)

theorem decode_reservedSL (h : p.opc = 0x5 ∨ p.opc = 0x7) (hr : p.reservedSL ≠ 0) : decode p = .error .reservedBits := by
  obtain h | h := h
  · exact (decode_setParam h).trans (if_neg hr)
  · exact (decode_loadParams h).trans (if_neg hr)

end

/-! ## Ignored payload bits (R121): the rows of formats N and B name no payload bit, that of format S only PL[31:0] -/

section
variable {cw : BitVec 32} {pl pl' : BitVec 64}

theorem Packet.opc_mk {k : BitVec 4} (h : cw.extractLsb' 28 4 = k) (pl : BitVec 64) : Packet.opc ⟨cw, pl⟩ = k.toNat :=
  Packet.opc_eq h

theorem decode_formatNB_congr (h : cw.extractLsb' 28 4 ∈ [0x1#4, 0x3#4, 0x4#4, 0x6#4]) :
    decode ⟨cw, pl⟩ = decode ⟨cw, pl'⟩ := by
  simp only [List.mem_cons, List.not_mem_nil, or_false] at h
  obtain h | h | h | h := h
  · exact (decode_init (Packet.opc_mk h pl)).trans (decode_init (Packet.opc_mk h pl')).symm
  · exact (decode_processBlock (Packet.opc_mk h pl)).trans (decode_processBlock (Packet.opc_mk h pl')).symm
  · exact (decode_reset (Packet.opc_mk h pl)).trans (decode_reset (Packet.opc_mk h pl')).symm
  · exact (decode_readParams (Packet.opc_mk h pl)).trans (decode_readParams (Packet.opc_mk h pl')).symm

theorem decode_formatS_congr (h : cw.extractLsb' 28 4 = 0x5#4) (hv : pl.extractLsb' 0 32 = pl'.extractLsb' 0 32) :
    decode ⟨cw, pl⟩ = decode ⟨cw, pl'⟩ := by
  have hlow : Packet.plLow ⟨cw, pl⟩ = Packet.plLow ⟨cw, pl'⟩ := hv
  rw [decode_setParam (Packet.opc_mk h pl), decode_setParam (Packet.opc_mk h pl'), hlow]
  rfl

end

end Sys2Proof

namespace Sys2Proof.Machine

open Sys2Proof

/-! ## What a packet does depends on its decoding alone -/

theorem receive_congr {p q : Packet} (h : decode p = decode q) (s : State) (port : Port) :
    s.receive port p = s.receive port q := by
  simp only [State.receive, deliver, h]

/-- A packet that is no command (R119, R120): ILLEGAL_COMMAND on the port it arrived on, and nothing else. -/
theorem receive_of_decode_error {p : Packet} {e : DecodeError} (h : decode p = .error e) (s : State) (port : Port) :
    s.receive port p = .next (s.respond port .illegalCommand 0) := by
  simp only [State.receive, deliver, h]
  rfl

theorem step_of_pending_packet {s : State} {port : Port} {p : Packet} {rest : List Event}
    (h : s.pending = .packet port p :: rest) : step s = State.receive { s with pending := rest } port p := by
  simp only [step, h]

theorem step_of_decode_error {s : State} {port : Port} {p : Packet} {rest : List Event} {e : DecodeError}
    (hs : s.pending = .packet port p :: rest) (h : decode p = .error e) :
    step s = .next (State.respond { s with pending := rest } port .illegalCommand 0) :=
  (step_of_pending_packet hs).trans (receive_of_decode_error h ..)

/-! ## The statements -/

/-- Settles O4: the rows of the opcode map without a mnemonic (`decode_reservedOpcode`). -/
theorem reservedOpcodeIsIllegal : Obligations.ReservedOpcodeIsIllegal :=
  ⟨rfl, fun _ _ _ _ hs h => step_of_decode_error hs (decode_reservedOpcode (h.imp Packet.opc_eq Packet.le_opc))⟩

/-- Settles O5: one lemma per format with a reserved field. -/
theorem reservedBitsAreIllegal : Obligations.ReservedBitsAreIllegal := by
  refine ⟨rfl, fun s port p rest hs h => step_of_decode_error hs (e := .reservedBits) ?_⟩
  obtain ⟨hopc, hr⟩ | ⟨hopc, hr⟩ | ⟨hopc, hr⟩ := h
  · exact decode_reservedN (hopc.imp Packet.opc_eq (Or.imp Packet.opc_eq Packet.opc_eq)) hr
  · exact decode_reservedP (Packet.opc_eq hopc) hr
  · exact decode_reservedSL (hopc.imp Packet.opc_eq Packet.opc_eq) hr

/-- Settles O7: the decoder gives both packets the same command or the same error, format by format. -/
theorem ignoredPayloadBits : Obligations.IgnoredPayloadBits := by
  intro s port cw pl pl' h
  refine receive_congr ?_ s port
  obtain h | ⟨hopc, hv⟩ := h
  · exact decode_formatNB_congr h
  · exact decode_formatS_congr hopc hv

end Sys2Proof.Machine
end

section
/-! PROOFS. CLAMP (40_parameter_store.md R141): the order that the comparisons `<` and `≤` give the encodings that are not NaN, the three
cases of CLAMP against bounds lo ≤ hi, and the values that lie outside the bounds of both parameters. -/

namespace Sys2Proof

/-! ## The comparisons, read through the order key -/

namespace F32

section
variable {a b c : F32}

theorem lt_iff : lt a b = true ↔ isNaN a = false ∧ isNaN b = false ∧ key a < key b := by
  simp [lt, and_assoc]

theorem le_iff : le a b = true ↔ isNaN a = false ∧ isNaN b = false ∧ key a ≤ key b := by
  simp [le, and_assoc]

theorem within_iff : within a b c = true ↔ le a c = true ∧ le c b = true := by
  simp [within]

theorem le_refl (h : isNaN a = false) : le a a = true := le_iff.2 ⟨h, h, Int.le_refl _⟩

theorem le_of_lt (h : lt a b = true) : le a b = true := by
  obtain ⟨ha, hb, hkey⟩ := lt_iff.1 h
  exact le_iff.2 ⟨ha, hb, hkey.le⟩

theorem le_trans (hab : le a b = true) (hbc : le b c = true) : le a c = true := by
  obtain ⟨ha, -, hkab⟩ := le_iff.1 hab
  obtain ⟨-, hc, hkbc⟩ := le_iff.1 hbc
  exact le_iff.2 ⟨ha, hc, hkab.trans hkbc⟩

theorem not_lt_of_le (h : le a b = true) : ¬ lt b a = true := by
  obtain ⟨-, -, hkey⟩ := le_iff.1 h
  intro hlt
  obtain ⟨-, -, hkey'⟩ := lt_iff.1 hlt
  exact hkey'.not_ge hkey

/-- The order is total on what is not NaN. -/
theorem le_of_not_lt (ha : isNaN a = false) (hb : isNaN b = false) (h : ¬ lt b a = true) : le a b = true :=
  le_iff.2 ⟨ha, hb, not_lt.1 fun hkey => h (lt_iff.2 ⟨hb, ha, hkey⟩)⟩

/-- A set sign bit reads as zero or less; −0.0 is the case of equality. -/
theorem key_nonpos_of_msb (h : a.msb = true) : key a ≤ 0 := by
  have hkey : key a = -(mag a : Int) := if_pos h
  omega

end

end F32

end Sys2Proof

namespace Sys2Proof.Machine

open Sys2Proof

/-! ## The three cases of CLAMP -/

section
variable {v lo hi : F32}

theorem clamp_of_lt (h : F32.lt v lo = true) : clamp v lo hi = lo ∧ isClamped v lo hi = true := by
  simp [clamp, isClamped, h]

/-- The two tests exclude each other when the bounds are in order. -/
theorem clamp_of_gt (hb : F32.le lo hi = true) (h : F32.lt hi v = true) :
    clamp v lo hi = hi ∧ isClamped v lo hi = true := by
  have hlo : ¬ F32.lt v lo = true := F32.not_lt_of_le (F32.le_trans hb (F32.le_of_lt h))
  simp [clamp, isClamped, h, hlo]

theorem clamp_of_within (h : F32.within lo hi v = true) : clamp v lo hi = v ∧ isClamped v lo hi = false := by
  obtain ⟨hlo, hhi⟩ := F32.within_iff.1 h
  simp [clamp, isClamped, F32.not_lt_of_le hlo, F32.not_lt_of_le hhi]

/-- CLAMP never answers a value outside its bounds. -/
theorem within_clamp (hv : F32.isNaN v = false) (hb : F32.le lo hi = true) :
    F32.within lo hi (clamp v lo hi) = true := by
  obtain ⟨hnlo, hnhi, -⟩ := F32.le_iff.1 hb
  by_cases hlt : F32.lt v lo = true
  · rw [(clamp_of_lt hlt).1]
    exact F32.within_iff.2 ⟨F32.le_refl hnlo, hb⟩
  by_cases hgt : F32.lt hi v = true
  · rw [(clamp_of_gt hb hgt).1]
    exact F32.within_iff.2 ⟨hb, F32.le_refl hnhi⟩
  · have hin : F32.within lo hi v = true :=
      F32.within_iff.2 ⟨F32.le_of_not_lt hnlo hv hlt, F32.le_of_not_lt hv hnhi hgt⟩
    rwa [(clamp_of_within hin).1]

end

/-! ## The bounds of the two parameters -/

theorem paramLo_le_paramHi (pid : ParamId) : F32.le (paramLo pid) (paramHi pid) = true := by
  cases pid <;> decide

/-- Both lower bounds are greater than zero. -/
theorem key_paramLo_pos (pid : ParamId) : 0 < F32.key (paramLo pid) := by
  cases pid <;> decide

/-- Both upper bounds are finite. -/
theorem paramHi_lt_infinity (pid : ParamId) : F32.lt (paramHi pid) 0x7F800000#32 = true := by
  cases pid <;> decide

theorem clampParam_of_key_nonpos (pid : ParamId) {v : F32} (hv : F32.isNaN v = false) (hkey : F32.key v ≤ 0) :
    clampParam pid v = paramLo pid := by
  obtain ⟨hnlo, -, -⟩ := F32.le_iff.1 (paramLo_le_paramHi pid)
  exact (clamp_of_lt (F32.lt_iff.2 ⟨hv, hnlo, hkey.trans_lt (key_paramLo_pos pid)⟩)).1

theorem clampParam_infinity (pid : ParamId) : clampParam pid 0x7F800000#32 = paramHi pid :=
  (clamp_of_gt (paramLo_le_paramHi pid) (paramHi_lt_infinity pid)).1

/-- Settles O15: the three cases of CLAMP, and for the parameters that zero lies below both ranges and +infinity above. -/
theorem clampFollowsBounds : Obligations.ClampFollowsBounds := by
  refine ⟨fun v lo hi hv hb => ?_, ⟨rfl, rfl, rfl, rfl⟩, fun pid v hv => ⟨rfl, fun hneg => ?_, fun hzero => ?_, ?_⟩⟩
  · exact ⟨clamp_of_lt, clamp_of_gt hb, clamp_of_within, within_clamp hv hb⟩
  · exact clampParam_of_key_nonpos pid hv (F32.key_nonpos_of_msb hneg)
  · have hkey : F32.key v = 0 := hzero ▸ rfl
    exact clampParam_of_key_nonpos pid hv hkey.le
  · rintro rfl
    exact clampParam_infinity pid

end Sys2Proof.Machine
end

section
/-! PROOFS. The phase increment (41_oscillator.md R173, R174): interval arithmetic through products, reciprocals and roundings, whose
two ends are the extreme operands. -/

namespace Sys2Proof

/-! ## The order of the values that are not negative -/

namespace Exact

/-- `a ≤ b`, both finite, of positive sign, and written over positive denominators. -/
inductive LeNonneg : Exact → Exact → Prop
  | fin {n d m e : Nat} (hd : 0 < d) (he : 0 < e) (h : n * e ≤ m * d) : LeNonneg (.fin false n d) (.fin false m e)

/-- `x` lies between `lo` and `hi`. -/
structure Between (lo hi x : Exact) : Prop where
  ge : lo.LeNonneg x
  le : x.LeNonneg hi

section
variable {a b a' b' : Exact}

theorem LeNonneg.mul (h : a.LeNonneg b) (h' : a'.LeNonneg b') : (a.mul a').LeNonneg (b.mul b') := by
  obtain @⟨n, d, m, e, hd, he, hab⟩ := h
  obtain @⟨n', d', m', e', hd', he', hab'⟩ := h'
  refine .fin (Nat.mul_pos hd hd') (Nat.mul_pos he he') ?_
  calc n * n' * (e * e') = n * e * (n' * e') := by ring
    _ ≤ m * d * (m' * d') := Nat.mul_le_mul hab hab'
    _ = m * m' * (d * d') := by ring

/-- The reciprocal turns the order round; the smaller value must not be zero. -/
theorem LeNonneg.recip (h : a.LeNonneg b) (ha : a.recip ≠ .inf false) : b.recip.LeNonneg a.recip := by
  obtain @⟨n, d, m, e, hd, he, hab⟩ := h
  have hn : n ≠ 0 := fun hn => ha (if_pos hn)
  have hm : m ≠ 0 := by
    rintro rfl
    have : 0 < n * e := Nat.mul_pos (Nat.pos_of_ne_zero hn) he
    omega
  simp only [Exact.recip, if_neg hn, if_neg hm]
  exact .fin (Nat.pos_of_ne_zero hm) (Nat.pos_of_ne_zero hn) (by linarith)

end

end Exact

/-! ## Encodings and roundings respect it -/

open Exact (LeNonneg Between)

theorem Format.decodeValue_leNonneg (f : Format) {m m' : Nat} (h : m ≤ m') (hfin : m' < f.infBits) :
    (f.decodeValue false m).LeNonneg (f.decodeValue false m') := by
  unfold decodeValue
  rw [if_pos (h.trans_lt hfin), if_pos hfin]
  exact .fin (Nat.two_pow_pos _) (Nat.two_pow_pos _) (Nat.mul_le_mul_right _ (f.magUnits_mono h))

section
variable {a b : Exact}

theorem Exact.LeNonneg.mag_rnd64 (h : a.LeNonneg b) : F64.mag (rnd64 a) ≤ F64.mag (rnd64 b) := by
  obtain ⟨hd, he, hab⟩ := h
  rw [(rnd64_fin ..).2, (rnd64_fin ..).2]
  exact Format.roundMag_mono _ hd he hab

theorem Exact.LeNonneg.val_rnd64 (h : a.LeNonneg b) (hfin : F64.mag (rnd64 b) < Format.binary64.infBits) :
    (F64.val (rnd64 a)).LeNonneg (F64.val (rnd64 b)) := by
  have hmag := h.mag_rnd64
  obtain ⟨-, -, -⟩ := h
  unfold F64.val
  rw [(rnd64_fin ..).1, (rnd64_fin ..).1]
  exact Format.decodeValue_leNonneg _ hmag hfin

theorem Exact.LeNonneg.rnd32_le (h : a.LeNonneg b) (free free' : F32) :
    F32.le (rnd32 free a) (rnd32 free' b) = true := by
  obtain @⟨n, d, m, e, hd, he, hab⟩ := h
  obtain ⟨hneg, hmag⟩ := rnd32_fin free false n d
  obtain ⟨hneg', hmag'⟩ := rnd32_fin free' false m e
  have hle := Format.roundMag_mono .binary32 hd he hab
  have htop := Format.roundMag_le_infBits .binary32
  simp [F32.le_iff, F32.isNaN, F32.key, hneg, hmag, hneg', hmag', hle, htop]

end

/-- Only a NaN takes free bits. -/
theorem rnd32_of_ne_nan {x : Exact} (h : x ≠ .nan) (free free' : F32) : rnd32 free x = rnd32 free' x := by
  cases x with
  | nan => exact absurd rfl h
  | inf neg => rfl
  | fin neg n d => rfl

theorem Format.between_decodeValue (f : Format) {lo hi m : Nat} (hlo : lo ≤ m) (hhi : m ≤ hi) (hfin : hi < f.infBits) :
    Between (f.decodeValue false lo) (f.decodeValue false hi) (f.decodeValue false m) :=
  ⟨f.decodeValue_leNonneg hlo (hhi.trans_lt hfin), f.decodeValue_leNonneg hhi hfin⟩

theorem F32.val_of_key_pos {x : F32} (h : 0 < key x) :
    val x = Format.binary32.decodeValue false (mag x) ∧ key x = mag x := by
  have hneg : isNeg x = false := by
    by_contra hneg
    have : key x = -(mag x : Int) := if_pos (Bool.eq_true_of_not_eq_false hneg)
    omega
  simp [val, key, hneg]

theorem F64.val_of_key_pos {x : F64} (h : 0 < key x) :
    val x = Format.binary64.decodeValue false (mag x) ∧ key x = mag x := by
  have hneg : isNeg x = false := by
    by_contra hneg
    have : key x = -(mag x : Int) := if_pos (Bool.eq_true_of_not_eq_false hneg)
    omega
  simp [val, key, hneg]

/-- Encodings compare as their values do. -/
theorem F32.between_val {lo hi x : F32} (hlo : key lo ≤ key x) (hhi : key x ≤ key hi) (hpos : 0 < key lo)
    (hfin : mag hi < Format.binary32.infBits) : Between (val lo) (val hi) (val x) := by
  obtain ⟨vlo, klo⟩ := val_of_key_pos hpos
  obtain ⟨vx, kx⟩ := val_of_key_pos (hpos.trans_le hlo)
  obtain ⟨vhi, khi⟩ := val_of_key_pos (hpos.trans_le (hlo.trans hhi))
  rw [vlo, vx, vhi]
  exact Format.between_decodeValue _ (by omega) (by omega) hfin

theorem F64.between_val {lo hi x : F64} (hlo : key lo ≤ key x) (hhi : key x ≤ key hi) (hpos : 0 < key lo)
    (hfin : mag hi < Format.binary64.infBits) : Between (val lo) (val hi) (val x) := by
  obtain ⟨vlo, klo⟩ := val_of_key_pos hpos
  obtain ⟨vx, kx⟩ := val_of_key_pos (hpos.trans_le hlo)
  obtain ⟨vhi, khi⟩ := val_of_key_pos (hpos.trans_le (hlo.trans hhi))
  rw [vlo, vx, vhi]
  exact Format.between_decodeValue _ (by omega) (by omega) hfin

/-! ## Interval arithmetic -/

namespace Exact.Between

variable {lo hi x lo' hi' x' : Exact}

theorem mul (h : Between lo hi x) (h' : Between lo' hi' x') : Between (lo.mul lo') (hi.mul hi') (x.mul x') :=
  ⟨h.ge.mul h'.ge, h.le.mul h'.le⟩

theorem recip (h : Between lo hi x) (hlo : lo.recip ≠ .inf false) : Between hi.recip lo.recip x.recip := by
  refine ⟨h.le.recip ?_, h.ge.recip hlo⟩
  intro hx
  have := h.ge.recip hlo
  rw [hx] at this
  cases this

theorem val_rnd64 (h : Between lo hi x) (hhi : F64.mag (rnd64 hi) < Format.binary64.infBits) :
    Between (F64.val (rnd64 lo)) (F64.val (rnd64 hi)) (F64.val (rnd64 x)) :=
  ⟨h.ge.val_rnd64 (h.le.mag_rnd64.trans_lt hhi), h.le.val_rnd64 hhi⟩

theorem rnd32_within (h : Between lo hi x) (fl fh fx : F32) :
    F32.within (rnd32 fl lo) (rnd32 fh hi) (rnd32 fx x) = true :=
  F32.within_iff.2 ⟨h.ge.rnd32_le .., h.le.rnd32_le ..⟩

end Exact.Between

end Sys2Proof

namespace Sys2Proof.Machine

open Sys2Proof

/-! ## delta -/

/-- A frequency of the store's range (R148), as a value. -/
theorem between_val_of_rateRange {freq : F32} (h : F32.within Config.rateMin Config.rateMax freq = true) :
    Exact.Between (F32.val Config.rateMin) (F32.val Config.rateMax) (F32.val freq) := by
  obtain ⟨hmin, hmax⟩ := F32.within_iff.1 h
  obtain ⟨-, -, hmin⟩ := F32.le_iff.1 hmin
  obtain ⟨-, -, hmax⟩ := F32.le_iff.1 hmax
  exact F32.between_val hmin hmax (by decide) (by decide)

/-- An accepted rate (R253), as a value. -/
theorem between_val_of_acceptedRate {r : F64} (h : badSampleRate r = false) :
    Exact.Between (F64.val Config.params.srMin) (F64.val Config.params.srMax) (F64.val r) := by
  simp only [badSampleRate, Bool.or_eq_false_iff] at h
  obtain ⟨⟨hnan, hmin⟩, hmax⟩ := h
  have hnmin : F64.isNaN Config.params.srMin = false := rfl
  have hnmax : F64.isNaN Config.params.srMax = false := rfl
  simp only [F64.lt, hnan, hnmin, hnmax, Bool.not_false, Bool.true_and, decide_eq_false_iff_not, Int.not_lt] at hmin hmax
  exact F64.between_val hmin hmax (by decide) (by decide)

/-- delta grows with the frequency and falls with the rate. -/
theorem phaseDelta_within {freq : F32} {r : F64} (t : Nat) (hf : F32.within Config.rateMin Config.rateMax freq = true)
    (hr : badSampleRate r = false) :
    F32.within (phaseDelta t Config.rateMin (rnd64 (F64.val Config.params.srMax).recip))
      (phaseDelta t Config.rateMax (rnd64 (F64.val Config.params.srMin).recip))
      (phaseDelta t freq (rnd64 (F64.val r).recip)) = true := by
  have hinv := ((between_val_of_acceptedRate hr).recip (by decide +kernel)).val_rnd64 (by decide +kernel)
  exact (((between_val_of_rateRange hf).mul hinv).val_rnd64 (by decide +kernel)).rnd32_within ..

/-- Where the product is no NaN, delta holds no free bits. -/
theorem phaseDelta_eq_rnd32 {freq : F32} {invSr : F64} (h : (rnd64 ((F32.val freq).mul (F64.val invSr))).val ≠ .nan)
    (t : Nat) : phaseDelta t freq invSr = rnd32 0 (rnd64 ((F32.val freq).mul (F64.val invSr))).val :=
  rnd32_of_ne_nan h ..

theorem phaseDelta_least (t : Nat) :
    phaseDelta t Config.rateMin (rnd64 (F64.val Config.params.srMax).recip) = 0x36AEC33E#32 :=
  (phaseDelta_eq_rnd32 (by decide +kernel) t).trans (by decide +kernel)

theorem phaseDelta_greatest (t : Nat) :
    phaseDelta t Config.rateMax (rnd64 (F64.val Config.params.srMin).recip) = 0x3C449BA6#32 :=
  (phaseDelta_eq_rnd32 (by decide +kernel) t).trans (by decide +kernel)

/-- Settles O33: delta is monotonic in both operands (`phaseDelta_within`), so its bounds are its values at their extremes. -/
theorem phaseIncrementBounds : Obligations.PhaseIncrementBounds := by
  refine ⟨fun t freq r hf hr => ?_, phaseDelta_least, phaseDelta_greatest⟩
  have h := phaseDelta_within t hf hr
  rwa [phaseDelta_least, phaseDelta_greatest] at h

end Sys2Proof.Machine
end

section
/-! PROOFS. The waveform (41_oscillator.md R170, R171): unipolar over the reals; and the fallback value of LFO_FN, which a Taylor
polynomial gives in units of 2^(−23), is allowed at every phase. -/

namespace Sys2Proof

/-! ## A short integer over a power of two is a value of the format -/

namespace Format

variable (f : Format)

theorem magUnits_of_lt {n : Nat} (h : n < 2 ^ f.fracBits) : f.magUnits n = n :=
  if_pos (Nat.div_eq_of_lt h)

theorem magUnits_normal {r : Nat} (h : r < 2 ^ f.fracBits) (k : Nat) :
    f.magUnits (r + 2 ^ f.fracBits * (k + 1)) = (r + 2 ^ f.fracBits) * 2 ^ k := by
  have hP : 0 < 2 ^ f.fracBits := Nat.two_pow_pos _
  simp [magUnits, Nat.add_mul_div_left _ _ hP, Nat.div_eq_of_lt h, Nat.mod_eq_of_lt h]

/-- An integer that fits a significand has an encoding at every scale: double it until the significand is full. -/
theorem exists_magUnits (k : Nat) {n : Nat} (h : n < 2 ^ (f.fracBits + 1)) :
    ∃ mag < (k + 2) * 2 ^ f.fracBits, f.magUnits mag = n * 2 ^ k := by
  have h2 : 2 ^ (f.fracBits + 1) = 2 * 2 ^ f.fracBits := by rw [pow_succ, Nat.mul_comm]
  induction k generalizing n with
  | zero =>
    by_cases hn : n < 2 ^ f.fracBits
    · exact ⟨n, by omega, by simp [f.magUnits_of_lt hn]⟩
    · obtain ⟨r, rfl⟩ := Nat.exists_eq_add_of_le' (Nat.le_of_not_lt hn)
      exact ⟨_, by omega, f.magUnits_normal (by omega) 0⟩
  | succ k ih =>
    by_cases hn : n < 2 ^ f.fracBits
    · obtain ⟨mag, hlt, hmag⟩ := ih (n := 2 * n) (by omega)
      exact ⟨mag, by nlinarith, by rw [hmag, pow_succ]; ring⟩
    · obtain ⟨r, rfl⟩ := Nat.exists_eq_add_of_le' (Nat.le_of_not_lt hn)
      exact ⟨_, by nlinarith, f.magUnits_normal (by omega) (k + 1)⟩

end Format

/-! ## Encodings from 0 to 1 -/

namespace F32

theorem toRat_of_val {x : F32} {neg : Bool} {n d : Nat} (h : val x = .fin neg n d) :
    toRat x = (Exact.signed neg n : ℚ) / d := by
  simp only [toRat, h]

/-- The encoding of 1.0. -/
theorem magUnits_one : Format.binary32.magUnits 0x3F800000 = 2 ^ Format.binary32.scale := by decide +kernel

/-- A phase (10_state.md R40) stands for a number from 0 to 1; −0.0 is among them. -/
theorem toRat_mem_of_inUnit {p : F32} (h : inUnit p = true) : 0 ≤ toRat p ∧ toRat p ≤ 1 := by
  obtain ⟨hge, hlt⟩ := Bool.and_eq_true_iff.1 h
  obtain ⟨-, -, hge⟩ := le_iff.1 hge
  obtain ⟨-, -, hlt⟩ := lt_iff.1 hlt
  change 0 ≤ key p at hge
  change key p < 0x3F800000 at hlt
  obtain ⟨hmag, hnonneg⟩ : mag p ≤ 0x3F800000 ∧ (isNeg p = true → mag p = 0) := by
    cases hneg : isNeg p <;> simp only [key, hneg, if_true, if_false, Bool.false_eq_true] at hge hlt
    · exact ⟨by omega, nofun⟩
    · exact ⟨by omega, fun _ => by omega⟩
  have hunits := magUnits_one ▸ Format.binary32.magUnits_mono hmag
  have hscale : (0 : ℚ) < (2 ^ Format.binary32.scale : ℕ) := Nat.cast_pos.2 (Nat.two_pow_pos _)
  have hsigned : Exact.signed (isNeg p) (Format.binary32.magUnits (mag p)) = Format.binary32.magUnits (mag p) := by
    unfold Exact.signed
    split
    case isTrue hneg => rw [hnonneg hneg]; rfl
    case isFalse => rfl
  rw [toRat_of_val (val_finite (hmag.trans_lt (by decide))), div_le_one hscale, hsigned, Int.cast_natCast]
  exact ⟨by positivity, by exact_mod_cast hunits⟩

/-- A number of units of 2^(−23), up to 1.0, has a binary32 encoding (`exists_magUnits`), so rounding keeps it. -/
theorem toRat_rnd32_units (free : F32) {n : Nat} (h : n ≤ 2 ^ 23) :
    toRat (rnd32 free (.fin false n (2 ^ 23))) = n / 2 ^ 23 := by
  obtain ⟨mag, hlt, hmag⟩ := Format.binary32.exists_magUnits 126 (n := n) (h.trans_lt (by decide))
  have hfin : mag < Format.binary32.infBits := hlt.trans_le (by decide)
  have hscale : 2 ^ Format.binary32.scale = 2 ^ 126 * 2 ^ 23 := by decide +kernel
  have hround : Format.binary32.roundMag n (2 ^ 23) = mag := by
    rw [← Format.roundMag_exact _ mag hfin.le, hmag]
    exact Format.roundMag_congr _ (Nat.two_pow_pos _) (Nat.two_pow_pos _) (by rw [hscale, Nat.mul_assoc])
  obtain ⟨hneg, hm⟩ := rnd32_fin free false n (2 ^ 23)
  rw [hround] at hm
  rw [toRat_of_val (val_finite (hm ▸ hfin)), hneg, hm, hmag, hscale, Exact.signed, if_neg Bool.false_ne_true]
  push_cast
  ring

/-- The ends 0 and 1 of the interval round to themselves. -/
theorem within_rnd32_units (free : F32) {n : Nat} (h : n ≤ 2 ^ 23) :
    within 0x00000000#32 0x3F800000#32 (rnd32 free (.fin false n (2 ^ 23))) = true := by
  have hunit : Exact.Between (.fin false 0 1) (.fin false 1 1) (.fin false n (2 ^ 23)) := by
    constructor
    · exact .fin Nat.one_pos (Nat.two_pow_pos _) (by simp)
    · exact .fin (Nat.two_pow_pos _) Nat.one_pos (by simpa using h)
  have hzero : rnd32 0 (.fin false 0 1) = 0x00000000#32 := by decide +kernel
  have hone : rnd32 0 (.fin false 1 1) = 0x3F800000#32 := by decide +kernel
  have hround := hunit.rnd32_within 0 0 free
  rwa [hzero, hone] at hround

end F32

end Sys2Proof

namespace Sys2Proof.Machine

open Sys2Proof

/-! ## The waveform over the reals -/

theorem RealReading.lfo_mem (p : ℝ) : 0 ≤ RealReading.lfo p ∧ RealReading.lfo p ≤ 1 := by
  have hge := Real.neg_one_le_sin (2 * Real.pi * p)
  have hle := Real.sin_le_one (2 * Real.pi * p)
  unfold RealReading.lfo
  constructor <;> linarith

/-- Settles O35: the range is that of the sine (`RealReading.lfo_mem`), and the quarter points are its values at multiples of π/2. -/
theorem realWaveformIsUnipolar : Obligations.RealWaveformIsUnipolar := by
  have hquarter : 2 * Real.pi * (1 / 4) = Real.pi / 2 := by ring
  have hhalf : 2 * Real.pi * (1 / 2) = Real.pi := by ring
  have hthree : 2 * Real.pi * (3 / 4) = Real.pi / 2 + Real.pi := by ring
  refine ⟨RealReading.lfo_mem, ?_, ?_, ?_, ?_⟩
  · simp [RealReading.lfo]
  · norm_num [RealReading.lfo, hquarter]
  · norm_num [RealReading.lfo, hhalf]
  · norm_num [RealReading.lfo, hthree, Real.sin_add_pi]

/-! ## The approximations of the sine and of π -/

theorem sin_quarterFold (v : ℚ) :
    Real.sin (2 * Real.pi * ((quarterFold v : ℚ) : ℝ)) = Real.sin (2 * Real.pi * (v : ℝ)) := by
  unfold quarterFold
  split
  · rfl
  · split
    · rw [← Real.sin_pi_sub]
      push_cast
      congr 1
      ring
    · rw [← Real.sin_sub_two_pi (_ * v)]
      push_cast
      congr 1
      ring

theorem abs_quarterFold_le {v : ℚ} (h0 : 0 ≤ v) (h1 : v ≤ 1) : |quarterFold v| ≤ 1 / 4 := by
  rw [abs_le]
  unfold quarterFold
  split
  · constructor <;> linarith
  · split <;> constructor <;> linarith

/-- The imaginary part of a term of the series of exp(y·i). -/
theorem im_expTerm (y : ℝ) (m : ℕ) :
    (((y : ℂ) * Complex.I) ^ m / (m.factorial : ℂ)).im = y ^ m / m.factorial * (Complex.I ^ (m % 4)).im := by
  have h : ((y : ℂ) * Complex.I) ^ m / (m.factorial : ℂ) = ((y ^ m / m.factorial : ℝ) : ℂ) * Complex.I ^ m := by
    push_cast
    ring
  rw [h, Complex.im_ofReal_mul, Complex.I_pow_eq_pow_mod]

theorem im_expSeries (y : ℚ) :
    (∑ m ∈ Finset.range 14, (((y : ℝ) : ℂ) * Complex.I) ^ m / (m.factorial : ℂ)).im = ((sinPoly y : ℚ) : ℝ) := by
  simp only [Complex.im_sum, im_expTerm]
  simp [Finset.sum_range_succ, Complex.I_pow_three, Nat.factorial, sinPoly]
  ring

/-- The Taylor polynomial is close to the sine up to a little more than a quarter turn, by the remainder of the series of exp. -/
theorem abs_sinPoly_sub_sin_le {y : ℚ} (h : |y| ≤ 8 / 5) : |((sinPoly y : ℚ) : ℝ) - Real.sin y| ≤ 1 / 2 ^ 25 := by
  have hy : |(y : ℝ)| ≤ 8 / 5 := by simpa using (Rat.cast_le (K := ℝ)).2 h
  have hnorm : ‖((y : ℝ) : ℂ) * Complex.I‖ = |(y : ℝ)| := by simp
  have htaylor := Complex.exp_bound' (x := ((y : ℝ) : ℂ) * Complex.I) (n := 14) (by rw [hnorm]; norm_num; linarith)
  have him := (Complex.abs_im_le_norm _).trans htaylor
  rw [Complex.sub_im, im_expSeries, Complex.exp_ofReal_mul_I_im, abs_sub_comm, hnorm] at him
  refine him.trans ?_
  calc |(y : ℝ)| ^ 14 / Nat.factorial 14 * 2 ≤ (8 / 5) ^ 14 / Nat.factorial 14 * 2 := by gcongr
    _ ≤ 1 / 2 ^ 25 := by norm_num [Nat.factorial]

theorem abs_piApprox_sub_pi_le : |((piApprox : ℚ) : ℝ) - Real.pi| ≤ 1 / 2 ^ 25 := by
  have hlo := Real.pi_gt_d20
  have hhi := Real.pi_lt_d20
  norm_num [piApprox, abs_le] at hlo hhi ⊢
  constructor <;> linarith

/-- The angle that the polynomial is taken at, against the exact one: the sine is the same up to the error of π. -/
theorem abs_sin_piApprox_sub_sin_le {v : ℚ} (h0 : 0 ≤ v) (h1 : v ≤ 1) :
    |Real.sin ((2 * piApprox * quarterFold v : ℚ) : ℝ) - Real.sin (2 * Real.pi * (v : ℝ))| ≤ 1 / 2 ^ 25 := by
  have hfold : |((quarterFold v : ℚ) : ℝ)| ≤ 1 / 4 := by simpa using (Rat.cast_le (K := ℝ)).2 (abs_quarterFold_le h0 h1)
  rw [← sin_quarterFold]
  calc |Real.sin ((2 * piApprox * quarterFold v : ℚ) : ℝ) - Real.sin (2 * Real.pi * ((quarterFold v : ℚ) : ℝ))|
      ≤ |((2 * piApprox * quarterFold v : ℚ) : ℝ) - 2 * Real.pi * ((quarterFold v : ℚ) : ℝ)| := Real.abs_sin_sub_sin_le _ _
    _ = |2 * (((piApprox : ℚ) : ℝ) - Real.pi) * ((quarterFold v : ℚ) : ℝ)| := by push_cast; ring_nf
    _ = 2 * |((piApprox : ℚ) : ℝ) - Real.pi| * |((quarterFold v : ℚ) : ℝ)| := by rw [abs_mul, abs_mul, abs_two]
    _ ≤ 2 * (1 / 2 ^ 25) * (1 / 4) := by gcongr; exact abs_piApprox_sub_pi_le
    _ ≤ 1 / 2 ^ 25 := by norm_num

/-! ## The fallback value -/

/-- What `lfoUnits` counts in units: the waveform by the approximations of the sine and of π. -/
def lfoWave (v : ℚ) : ℚ := 1 / 2 + 1 / 2 * sinPoly (2 * piApprox * quarterFold v)

theorem lfoUnits_eq (v : ℚ) : lfoUnits v = min (2 ^ 23) (round (lfoWave v * 2 ^ 23)).toNat := by
  rw [round_eq]
  rfl

theorem lfoUnits_le (v : ℚ) : lfoUnits v ≤ 2 ^ 23 := Nat.min_le_left ..

theorem abs_lfoWave_sub_lfo_le {v : ℚ} (h0 : 0 ≤ v) (h1 : v ≤ 1) :
    |((lfoWave v : ℚ) : ℝ) - RealReading.lfo v| ≤ 1 / 2 ^ 24 := by
  have hangle : |2 * piApprox * quarterFold v| ≤ 8 / 5 := by
    have hfold := abs_quarterFold_le h0 h1
    rw [abs_mul, abs_of_nonneg (by norm_num [piApprox])]
    norm_num [piApprox] at hfold ⊢
    linarith
  have htri := abs_sub_le ((sinPoly (2 * piApprox * quarterFold v) : ℚ) : ℝ)
    (Real.sin ((2 * piApprox * quarterFold v : ℚ) : ℝ)) (Real.sin (2 * Real.pi * v))
  have hpoly := abs_sinPoly_sub_sin_le hangle
  have hpi := abs_sin_piApprox_sub_sin_le h0 h1
  have hhalf : ((lfoWave v : ℚ) : ℝ) - RealReading.lfo v =
      1 / 2 * (((sinPoly (2 * piApprox * quarterFold v) : ℚ) : ℝ) - Real.sin (2 * Real.pi * v)) := by
    rw [RealReading.lfo, lfoWave]
    push_cast
    ring
  rw [hhalf, abs_mul, abs_of_nonneg one_half_pos.le]
  linarith

/-- Rounding an approximation of a number from 0 to N, and clamping it to that range, adds at most one half to its error: the
clamp, which keeps the number, brings no two values farther apart. -/
theorem abs_min_round_sub_le {N : ℕ} {z : ℚ} {w : ℝ} (h0 : 0 ≤ w) (hN : w ≤ N) :
    |((min N (round z).toNat : ℕ) : ℝ) - w| ≤ |(z : ℝ) - w| + 1 / 2 := by
  have hround : |(round z : ℝ) - z| ≤ 1 / 2 := by
    rw [abs_sub_comm, ← Rat.round_cast (α := ℝ)]
    exact abs_sub_round (z : ℝ)
  have hclamp : ((min N (round z).toNat : ℕ) : ℝ) = min (N : ℝ) (max (round z : ℝ) 0) := by
    rw [Nat.cast_min, ← Int.cast_natCast (round z).toNat, Int.ofNat_toNat, Int.cast_max, Int.cast_zero]
  calc |((min N (round z).toNat : ℕ) : ℝ) - w| = |min (N : ℝ) (max (round z : ℝ) 0) - min (N : ℝ) (max w 0)| := by
        rw [hclamp, max_eq_left h0, min_eq_right hN]
    _ ≤ |max (round z : ℝ) 0 - max w 0| := by
        simpa using abs_min_sub_min_le_max (N : ℝ) (max (round z : ℝ) 0) N (max w 0)
    _ ≤ |(round z : ℝ) - w| := abs_max_sub_max_le_abs ..
    _ ≤ |(z : ℝ) - w| + 1 / 2 := by linarith [abs_sub_le (round z : ℝ) z w]

theorem abs_lfoUnits_sub_lfo_le {v : ℚ} (h0 : 0 ≤ v) (h1 : v ≤ 1) :
    |(lfoUnits v : ℝ) - RealReading.lfo v * 2 ^ 23| ≤ 1 := by
  obtain ⟨hw0, hw1⟩ := RealReading.lfo_mem v
  have hround := abs_min_round_sub_le (N := 2 ^ 23) (z := lfoWave v * 2 ^ 23) (w := RealReading.lfo v * 2 ^ 23)
    (by positivity) (by push_cast; linarith)
  rw [← lfoUnits_eq] at hround
  refine hround.trans ?_
  calc |((lfoWave v * 2 ^ 23 : ℚ) : ℝ) - RealReading.lfo v * 2 ^ 23| + 1 / 2
      = |((lfoWave v : ℚ) : ℝ) - RealReading.lfo v| * 2 ^ 23 + 1 / 2 := by
        push_cast
        rw [← sub_mul, abs_mul, abs_of_nonneg (a := (2 : ℝ) ^ 23) (by positivity)]
    _ ≤ 1 / 2 ^ 24 * 2 ^ 23 + 1 / 2 := by gcongr; exact abs_lfoWave_sub_lfo_le h0 h1
    _ = 1 := by norm_num

/-- The accuracy of R171 (property 3), twice over. -/
theorem abs_lfoFallback_sub_lfo_le {p : F32} (hp : F32.inUnit p = true) :
    |((F32.toRat (lfoFallback p) : ℚ) : ℝ) - RealReading.lfo (F32.toRat p)| ≤ 1 / 2 ^ 23 := by
  obtain ⟨h0, h1⟩ := F32.toRat_mem_of_inUnit hp
  have hunits := abs_lfoUnits_sub_lfo_le h0 h1
  rw [lfoFallback, F32.toRat_rnd32_units 0 (lfoUnits_le _)]
  push_cast
  rw [div_sub' (by positivity), abs_div, abs_of_nonneg (a := (2 : ℝ) ^ 23) (by positivity), mul_comm]
  gcongr

theorem lfoFallback_allowed (p : F32) : Config.LfoAllowed p (lfoFallback p) := by
  intro hp
  refine ⟨F32.within_rnd32_units 0 (lfoUnits_le _), ?_, ?_, ?_, ?_, ?_⟩
  · rintro rfl
    decide +kernel
  · rintro rfl
    decide +kernel
  · rintro rfl
    decide +kernel
  · rintro rfl
    decide +kernel
  · exact (abs_lfoFallback_sub_lfo_le hp).trans (by norm_num)

/-- Settles O32: an open choice is allowed by its type, and where there is none `lfoFallback_allowed` holds. -/
theorem lfoHasItsProperties : Obligations.LfoHasItsProperties := by
  intro p
  unfold lfoFn
  cases Config.lfoPick p with
  | none => exact lfoFallback_allowed p
  | some m => exact m.2

end Sys2Proof.Machine
end

section
/-! PROOFS. The delay line's length and its write (42_delay_line.md R193, R197). Each operator of Lsize respects the order of the
rates, so Lsize grows with the rate and its range is that of its values at the two extreme rates. -/

namespace Sys2Proof

theorem Exact.LeNonneg.ceilNat_le {a b : Exact} (h : a.LeNonneg b) : a.ceilNat ≤ b.ceilNat := by
  obtain @⟨n, d, m, e, hd, he, hab⟩ := h
  show (n + d - 1) / d ≤ (m + e - 1) / e
  rw [← Nat.ceilDiv_eq_add_pred_div, ← Nat.ceilDiv_eq_add_pred_div, ceilDiv_le_iff_le_mul hd]
  refine Nat.le_of_mul_le_mul_right ?_ he
  calc n * e ≤ m * d := hab
    _ ≤ e * (m ⌈/⌉ e) * d := Nat.mul_le_mul_right d (le_smul_ceilDiv he)
    _ = d * (m ⌈/⌉ e) * e := by ring

theorem F64.le_iff {a b : F64} : le a b = true ↔ isNaN a = false ∧ isNaN b = false ∧ key a ≤ key b := by
  simp [le, and_assoc]

end Sys2Proof

namespace Sys2Proof.Machine

open Sys2Proof

/-! ## The length -/

/-- The accepted rates are exactly the encodings ordered between SR_MIN and SR_MAX (R253). -/
theorem badSampleRate_eq_false_iff {r : F64} :
    badSampleRate r = false ↔ F64.le Config.params.srMin r = true ∧ F64.le r Config.params.srMax = true := by
  have hnmin : F64.isNaN Config.params.srMin = false := rfl
  have hnmax : F64.isNaN Config.params.srMax = false := rfl
  cases hnan : F64.isNaN r <;> simp [badSampleRate, F64.lt, F64.le, hnan, hnmin, hnmax]

theorem between_val_of_acceptedRates {r r' : F64} (hr : badSampleRate r = false) (hr' : badSampleRate r' = false)
    (hle : F64.le r r' = true) : Exact.Between (F64.val r) (F64.val Config.params.srMax) (F64.val r') := by
  obtain ⟨-, -, hmin⟩ := F64.le_iff.1 (badSampleRate_eq_false_iff.1 hr).left
  obtain ⟨-, -, hmax⟩ := F64.le_iff.1 (badSampleRate_eq_false_iff.1 hr').right
  obtain ⟨-, -, hkey⟩ := F64.le_iff.1 hle
  have hpos : 0 < F64.key Config.params.srMin := by decide
  exact F64.between_val hkey hmax (hpos.trans_le hmin) (by decide)

theorem between_val_depthMax :
    Exact.Between (F32.val Config.depthMax) (F32.val Config.depthMax) (F32.val Config.depthMax) :=
  F32.between_val le_rfl le_rfl (by decide) (by decide)

/-- The product, its rounding and the ceiling keep the order; where the largest product does not overflow, no smaller one does. -/
theorem lsize_between {lo hi r : F64} (h : Exact.Between (F64.val lo) (F64.val hi) (F64.val r))
    (hfin : F64.mag (rnd64 ((F32.val Config.depthMax).mul (F64.val hi))) < Format.binary64.infBits) :
    lsize lo ≤ lsize r ∧ lsize r ≤ lsize hi := by
  have hround := (between_val_depthMax.mul h).val_rnd64 hfin
  exact ⟨Nat.add_le_add_right hround.ge.ceilNat_le _, Nat.add_le_add_right hround.le.ceilNat_le _⟩

/-- The length at SR_MAX is finite. -/
theorem mag_lengthProduct_srMax_lt :
    F64.mag (rnd64 ((F32.val Config.depthMax).mul (F64.val Config.params.srMax))) < Format.binary64.infBits := by
  decide +kernel

theorem lsize_srMin : lsize Config.params.srMin = 55 := by decide +kernel

theorem lsize_srMax : lsize Config.params.srMax = Config.bufCap := by decide +kernel

/-- Settles O37: the growth and the range are `lsize_between`, from the smaller rate and from SR_MIN. -/
theorem delayLineSizing : Obligations.DelayLineSizing := by
  refine ⟨fun r => rfl, lsize_srMin, ?_, ?_, ?_, ?_, ?_, lsize_srMax, rfl, fun r r' hr hr' hle => ?_, fun r hr => ?_⟩
  · decide +kernel
  · decide +kernel
  · decide +kernel
  · decide +kernel
  · decide +kernel
  · obtain ⟨hgrow, -⟩ := lsize_between (between_val_of_acceptedRates hr hr' hle) mag_lengthProduct_srMax_lt
    exact hgrow
  · have h := lsize_between (between_val_of_acceptedRate hr) mag_lengthProduct_srMax_lt
    rwa [lsize_srMin, lsize_srMax] at h

/-! ## DL_WRITE -/

/-- The wrap of R197 is the remainder. -/
theorem nextIndex_eq_mod {len w : Nat} (h : w < len) : nextIndex len w = (w + 1) % len := by
  unfold nextIndex
  split
  · next hlast => rw [hlast, Nat.mod_self]
  · next hne => exact (Nat.mod_eq_of_lt (by omega)).symm

/-- Inside the live delay line DL_WRITE is the write of one word. -/
theorem dlWrite_eq_write {len w : Nat} (b : Bank) (x : F32) (hw : w < len) (hlen : len ≤ Config.bufCap) :
    hardware.dlWrite len b w x = .ok (b.write w x) :=
  bufWrite_ok.2 ⟨hw, hw.trans_le hlen, rfl⟩

/-- Settles O40: the stored word and the frame are those of one `Bank.write`. -/
theorem delayWriteStoresSample : Obligations.DelayWriteStoresSample := by
  intro len w b x hw hlen
  exact ⟨⟨b.write w x, dlWrite_eq_write b x hw hlen, b.read?_write_same w x, fun i hi => b.read?_write_other x hi⟩,
    nextIndex_eq_mod hw⟩

end Sys2Proof.Machine
end

section
/-! PROOFS. PREPARE and RESET (44_lifecycle.md R252–R256). Both end in ClearBuf, and clearing the same words twice is clearing them
once: so RESET twice is RESET once, and PREPARE twice with one rate differs from PREPARE once only in what it copies. -/

namespace Sys2Proof

theorem F32.lt_of_le_of_lt {a b c : F32} (hab : le a b = true) (hbc : lt b c = true) : lt a c = true := by
  obtain ⟨ha, -, hkab⟩ := le_iff.1 hab
  obtain ⟨-, hc, hkbc⟩ := lt_iff.1 hbc
  exact lt_iff.2 ⟨ha, hc, hkab.trans_lt hkbc⟩

end Sys2Proof

namespace Sys2Proof.Machine

open Sys2Proof

/-! ## Clearing twice -/

/-- The first clear leaves the second one nothing below n but the zeros it wrote. -/
theorem Bank.clear_clear {V : Type} (b : Bank V) (n : Nat) (zero : V) : (b.clear n zero).clear n zero = b.clear n zero := by
  have hzeros : ((List.range n).map (fun i => (i, zero))).filter (fun e => decide (n ≤ e.1)) = [] := by
    simp [List.filter_eq_nil_iff]
  unfold clear
  rw [List.filter_append, hzeros, List.nil_append, List.filter_filter]
  simp only [Bool.and_self]

theorem Memory.map_clear_map_clear {V : Type} {ch : Nat} (mem : Memory V ch) (n : Nat) (zero : V) :
    (mem.map (Bank.clear · n zero)).map (Bank.clear · n zero) = mem.map (Bank.clear · n zero) := by
  rw [Vector.map_map]
  exact Vector.map_congr_left fun b _ => b.clear_clear n zero

section
variable {V W : Type} {ch : Nat} {d : Design V W} {s t : State V W ch} {r : F64}

/-! ## The two commands, branch by branch -/

theorem prepare_of_refusedRate (hr : badSampleRate r d.params = true) (m : Nat) (s : State V W ch) :
    d.prepare m r s = .next (s.respond .host .badSampleRate 0) := if_pos hr

/-- A rate whose length fits the delay RAM raises no INDEX_RANGE. -/
theorem prepare_of_acceptedRate (hr : badSampleRate r d.params = false) (hlen : d.lsize r ≤ d.params.bufCap) (m : Nat)
    (s : State V W ch) :
    d.prepare m r s = .next ((d.activate
      { d.setSampleRate s m r with buf := s.buf.map (Bank.clear · (d.lsize r) d.zero) }).respond .host .ok 0) := by
  have hclear := (clearBuf_ok (d := d) (s := d.setSampleRate s m r)).2 ⟨hlen, rfl⟩
  unfold Design.prepare
  rw [hr, hclear]
  rfl

theorem reset_of_lReg_le (h : s.lReg ≤ d.params.bufCap) :
    d.reset s = .next (State.respond { s with buf := s.buf.map (Bank.clear · s.lReg d.zero) } .host .ok 0) := by
  unfold Design.reset
  rw [clearBuf_ok.2 ⟨h, rfl⟩]
  rfl

/-! ## Twice -/

/-- RESET leaves L_REG as it was, so the second one clears the same words. -/
theorem reset_reset (h : d.reset s = .next t) : d.reset t = .next t := by
  obtain ⟨hlen, rfl⟩ := reset_next h
  rw [reset_of_lReg_le]
  · simp only [State.respond, Memory.map_clear_map_clear]
  · exact hlen

/-- PREPARE's length is a function of its rate alone, so the second one clears the same words. -/
theorem prepare_prepare {m : Nat} (hr : badSampleRate r d.params = false) (h : d.prepare m r s = .next t) (m' : Nat)
    (a w : F32) (dirty : Bool) :
    d.prepare m' r { t with rateReg := a, depthReg := w, dirty := dirty } =
      .next { t with rateReg := a, depthReg := w, freq := a, width := w, dirty := false, maxblk := m' } := by
  obtain ⟨hbad, -⟩ | ⟨-, hlen, rfl⟩ := prepare_next h
  · rw [hr] at hbad
    cases hbad
  · rw [prepare_of_acceptedRate hr hlen]
    simp only [Design.activate, Design.setSampleRate, State.refresh, State.respond, Memory.map_clear_map_clear]

end

/-! ## The accepted rates of this hardware -/

theorem lsize_le_bufCap {r : F64} (hr : badSampleRate r = false) : lsize r ≤ Config.bufCap := by
  obtain ⟨-, hle⟩ := lsize_between (between_val_of_acceptedRate hr) mag_lengthProduct_srMax_lt
  rwa [lsize_srMax] at hle

/-- The greatest delta, of RATE_MAX at SR_MIN, is far below 1. -/
theorem phaseDelta_lt_one {freq : F32} {r : F64} (t : Nat) (hf : F32.within Config.rateMin Config.rateMax freq = true)
    (hr : badSampleRate r = false) : F32.lt (phaseDelta t freq (rnd64 (F64.val r).recip)) 0x3F800000#32 = true := by
  obtain ⟨-, hle⟩ := F32.within_iff.1 (phaseDelta_within t hf hr)
  rw [phaseDelta_greatest] at hle
  exact F32.lt_of_le_of_lt hle (by decide)

/-- Settles O27: the two branches of PREPARE; an accepted rate lies between SR_MIN and SR_MAX, where Lsize and delta have their
greatest values at one end. -/
theorem prepareChecksRate : Obligations.PrepareChecksRate := by
  refine ⟨fun r => ?_, fun m r s hr => prepare_of_refusedRate (d := hardware) hr m s, fun m r s hr => ?_⟩
  · rw [badSampleRate_eq_false_iff]
    refine ⟨fun ⟨hmin, hmax⟩ => ?_, fun ⟨_, hmin, hmax⟩ => ⟨hmin, hmax⟩⟩
    obtain ⟨hnan, -, -⟩ := F64.le_iff.1 hmax
    exact ⟨hnan, hmin, hmax⟩
  · have hlen := lsize_le_bufCap hr
    exact ⟨_, prepare_of_acceptedRate (d := hardware) hr hlen m s, rfl, rfl, hlen, fun u freq hf => phaseDelta_lt_one u hf hr⟩

/-- Settles O28, by `prepare_prepare`. -/
theorem prepareTwiceIsOnce : Obligations.PrepareTwiceIsOnce := by
  intro m m' r s t hr h a w dirty
  exact prepare_prepare (d := hardware) hr h m' a w dirty

/-- Settles O30, by `reset_reset`. -/
theorem resetIsIdempotent : Obligations.ResetIsIdempotent := by
  intro s t h
  exact reset_reset (d := hardware) h

end Sys2Proof.Machine
end
